-- ==== Sys2Proof/Word.lean ====
section
/-! DEFINITION. The word types of MD5CORE (spec/00_scope.md R5 to R8) and the quadruple of words that the
chaining registers (A,B,C,D) and the working registers (a,b,c,d) each form. Addition `+32` and `+64` of R8 is the
wrapping `+` of `BitVec`. -/

namespace Sys2Proof

/-- A byte: the unit of BUF and DIN (R40, R49). -/
abbrev Byte := BitVec 8

/-- A 32-bit unsigned word: A, B, C, D, every round value, a command word (R5, R6). -/
abbrev Word := BitVec 32

/-- Four words held together: (A,B,C,D) or (a,b,c,d), in that order (R21, R22). -/
structure Quad where
  a : Word
  b : Word
  c : Word
  d : Word
  deriving DecidableEq, Repr

/-- Component-wise addition mod 2^32, "old state plus the post-round registers" (R90, R100). -/
def Quad.add (x y : Quad) : Quad := ⟨x.a + y.a, x.b + y.b, x.c + y.c, x.d + y.d⟩

end Sys2Proof
end

