-- ==== Sys2Proof/Machine/Bits.lean ====
section
/-! DEFINITION. The primitives of R8 that are not plain `BitVec` arithmetic: rotation and the little-endian byte order. -/

namespace Sys2Proof.Machine

/-- `rotl32(x, s)` (R8): bits shifted out at the top re-enter at the bottom; `rotl32(x, 0) = x`. -/
def rotl32 (x : Word) (s : Nat) : Word := (x <<< s) ||| (x >>> (32 - s))

/-- `le_word(b0, b1, b2, b3)` (R8, R44). -/
def leWord (b0 b1 b2 b3 : Byte) : Word := b3 ++ b2 ++ b1 ++ b0

/-- `le_bytes_n(v)` (R8): byte m is `v[8m+7:8m]`. -/
def leBytes {w : Nat} (n : Nat) (v : BitVec w) : List Byte := (List.range n).map fun m => v.extractLsb' (8 * m) 8

end Sys2Proof.Machine
end

