-- ==== Sys2Proof/Config.lean ====
section
/-! DEFINITION. What the spec leaves "unspecified" (R10: a read of it is a draw, any value, never a fixed number), as free
values: opaque functions of a draw number, with no body, so that no proof can know a value of one. The draw number is the
State's own counter `draws`. Log entries 2 and 3. DESIGN CHOICE, log entry 15: a free value depends on its slot and its draw number only,
so two instances, or two runs, that make a draw of the same number agree in it; the spec leaves that open. -/

namespace Sys2Proof

/-- The word registers whose value the spec leaves unspecified at some point: R36, R154, R180 (A, B, C, D) and R22, R180
(a, b, c, d). -/
inductive FreeSlot where
  | chainA | chainB | chainC | chainD
  | workA | workB | workC | workD
  deriving DecidableEq, Repr

/-- An unspecified 32-bit register (R22, R36, R154). -/
opaque Config.freeWord : FreeSlot → Nat → Word

/-- An unspecified CNT (R36, R154). -/
opaque Config.freeCount : Nat → BitVec 64

/-- An unspecified OFF (R36, R154): "an offset in [0,64]" (R25). -/
opaque Config.freeOffset : Nat → Fin 65

/-- A byte of BUF where BUF has no value: the draw number and the address (R36, R154). -/
opaque Config.freeByte : Nat → Nat → Byte

/-- An unspecified step index (R26, R36). -/
opaque Config.freeStep : Nat → BitVec 6

/-- What STATUS shows while a command is in progress (R187). -/
opaque Config.freeStatus : Nat → BitVec 8

/-- What DIGEST shows while DV = 0 or a command is in progress (R30, R187). -/
opaque Config.freeDigest : Nat → BitVec 128

/-- What one DIGEST quarter (register 1 to 4) shows when it shows no digest (R30, R50): the register and the draw number. -/
opaque Config.freeQuarter : Nat → Nat → Word

end Sys2Proof
end

