-- ==== Sys2Proof/Machine/State.lean ====
section
/-! DEFINITION. The state of one instance of MD5CORE as plain data (spec/10_state.md R20 to R36), the reasons a step can stop,
and the state after reset (R36, R180). Every field of R20 is here, with the host's three inputs (CMD, DIN, RESET) and
what the spec implies for a command in progress. The first two fields are the model's own (log entries 3 and 8). -/

namespace Sys2Proof.Machine

/-- PHASE (R27): the lifecycle position. -/
inductive Phase where
  | idle | active | done | faulted
  deriving DecidableEq, Repr

/-- ERRCODE (R28, R152). The codes 5, 6 and 7 are never produced and are not representable (U12). -/
inductive ErrCode where
  | none | illegalCmd | notInitialised | feedAfterFinal | finalAfterFinal
  deriving DecidableEq, Repr

/-- A FEED that is waiting for payload: `DIN.pop()` holds while DIN is empty (R70, R185, R194). -/
inductive Transfer where
  /-- `left` payload bytes are still to be popped and pushed into BUF (FEED in phase ACTIVE, R114). -/
  | push (left : Nat)
  /-- `left` payload bytes are still to be popped and discarded; the fault is raised after them (R114, R154). -/
  | discard (left : Nat)
  deriving DecidableEq, Repr

/-- A byte memory in canonical form: addresses strictly rising. An address that is not listed has no value (Machine/Ops.lean), so
no cell says what an unlisted address reads as. It holds BUF (R24). -/
abbrev Memory := List Host.Cell

/-- Why a step stops with a fault. No command and no step micro-operation ever does; only the two micro-operations named
here, and only outside the operands and states the spec gives them a meaning for. Both are safe: the model stops. -/
inductive Fault where
  /-- PUSHBYTE with OFF = 64: it would store at address 64, and BUF has the addresses 0 .. 63 only (R41, R111). Raised by
  execPushbyte. Safe. -/
  | bufferAddress
  /-- FEEDBYTES asks the 8-byte length field for a ninth byte (R72); such a term is ill-formed. Raised by execFeedbytes.
  Safe. -/
  | lengthFieldExhausted
  deriving DecidableEq, Repr

/-- Why the model has no move. -/
inductive Refusal where
  /-- An instruction without a meaning, by its mnemonic. Raised by no arm of exec. Safe. -/
  | notModelled (mnemonic : String)
  /-- A host read of a register number of 5 or above (R50: such a register does not exist; "a model refuses it"). Raised by
  hostRead, by no step. Safe. -/
  | noSuchRegister (number : Nat)
  deriving DecidableEq, Repr

/-- One instance of the core (R20), with the host's inputs. -/
structure State where
  /-- The model's own: how many draws of free values have been made; the next draw has this number (log entry 3). It stands
  first so that Lean tells a state after a draw from the state before it by one small comparison. -/
  draws : Nat
  /-- The model's own: how many COMPRESS have run since the last INIT, the event history of R142. No operation reads it. -/
  comps : Nat
  /-- Chaining register A (R21). -/
  A : Word
  /-- Chaining register B (R21). -/
  B : Word
  /-- Chaining register C (R21). -/
  C : Word
  /-- Chaining register D (R21). -/
  D : Word
  /-- Working register a (R22). -/
  a : Word
  /-- Working register b (R22). -/
  b : Word
  /-- Working register c (R22). -/
  c : Word
  /-- Working register d (R22). -/
  d : Word
  /-- CNT, the ByteCounter (R23). -/
  cnt : BitVec 64
  /-- OFF, the PendingBuffer offset; 65 to 127 are unrepresentable, as R25 asks. -/
  off : Fin 65
  /-- BUF[0..63], the PendingBuffer (R24). -/
  buf : Memory
  /-- The step index i (R26). -/
  i : BitVec 6
  /-- A compression is in progress: inside it i selects what runs next (R26, R60, R102). -/
  compressing : Bool
  /-- PHASE (R27). -/
  phase : Phase
  /-- ERR (R28). -/
  err : Bool
  /-- ERRCODE (R28). -/
  errcode : ErrCode
  /-- The FEED in progress, if one is holding for payload (R185, R194). -/
  transfer : Option Transfer
  /-- The RESET input (R180): the host has asserted it and the core has not yet acted on it. -/
  resetIn : Bool
  /-- The CMD port (R31): the command words the host has issued and the core has not yet started, oldest first. -/
  cmd : List Word
  /-- The DIN channel (R32): the bytes the host has supplied and the core has not yet taken, oldest first. -/
  din : List Byte
  deriving DecidableEq, Repr

/-- The state right after RESET (R36, R180): PHASE, ERR, ERRCODE and DIN as the spec says; no command in progress; every register
the spec leaves unspecified at the value that log entry 1 names (zero). -/
def State.reset : State where
  draws := 0
  comps := 0
  A := 0
  B := 0
  C := 0
  D := 0
  a := 0
  b := 0
  c := 0
  d := 0
  cnt := 0
  off := 0
  buf := []
  i := 0
  compressing := false
  phase := .idle
  err := false
  errcode := .none
  transfer := none
  resetIn := false
  cmd := []
  din := []

end Sys2Proof.Machine
end

