-- ==== Sys2Proof/Syntax.lean ====
section
/-! DEFINITION. The instructions of MD5CORE: one constructor per row of spec/opcode_table.json: the four host commands
(R62 to R65), the four step micro-operations (R69), and the four micro-operations that no bit pattern selects (R77). -/

namespace Sys2Proof

/-- The byte source `src` of FEEDBYTES (R113): byte m is `src(m)`. The three sources are those of its three callers. -/
inductive ByteSrc where
  /-- `m -> DIN.pop()`: the payload of a FEED (R114). -/
  | din
  /-- `m -> v`: the same byte each time (FILL, R117; the 0x80 and 0x00 padding bytes of FINAL, R133, R134). -/
  | const (v : Byte)
  /-- `m -> le_bytes_8(bits)[m]`: the length field of FINAL (R72, R135); it has 8 bytes and no more. -/
  | lengthField (bits : BitVec 64)
  deriving DecidableEq, Repr

/-- The instructions: every row of spec/opcode_table.json, in the table's order. -/
inductive Instr where
  /-- INIT (R62, R110). -/
  | init
  /-- FEED (R63, R114): LEN payload bytes follow on DIN. -/
  | feed (len : BitVec 16)
  /-- FILL (R64, R117): COUNT copies of VALUE. -/
  | fill (value : Byte) (count : BitVec 16)
  /-- FINAL (R65, R131). -/
  | final
  /-- STEP_F (R69, R96): position j of round 0, step index 00jjjj. -/
  | stepF (j : BitVec 4)
  /-- STEP_G (R69, R97): position j of round 1, step index 01jjjj. -/
  | stepG (j : BitVec 4)
  /-- STEP_H (R69, R98): position j of round 2, step index 10jjjj. -/
  | stepH (j : BitVec 4)
  /-- STEP_I (R69, R99): position j of round 3, step index 11jjjj. -/
  | stepI (j : BitVec 4)
  /-- COMPRESS (R100). -/
  | compress
  /-- PUSHBYTE (R111): its operand is one byte. -/
  | pushbyte (v : Byte)
  /-- FEEDBYTES (R113): a number of bytes and where they come from. -/
  | feedbytes (n : BitVec 16) (src : ByteSrc)
  /-- SERIALIZE (R136). -/
  | serialize
  deriving DecidableEq, Repr

end Sys2Proof
end

