-- ==== Sys2Proof/WellFormed.lean ====
section
/-! DEFINITION. Which instruction terms the spec gives a meaning. The types already exclude an operand that does not fit
its field (R67); what is left is the length field's eight bytes (R72): FEEDBYTES cannot take a ninth. -/

namespace Sys2Proof

/-- FEEDBYTES with n bytes of source `src`: every `src(m)`, m = 0 .. n-1, exists (R72, R113). -/
def ByteSrc.supplies (n : BitVec 16) : ByteSrc → Bool
  | .din => true
  | .const _ => true
  | .lengthField _ => decide (n.toNat ≤ 8)

/-- The term is an instruction the spec gives a meaning. -/
def Instr.wf : Instr → Bool
  | .init => true
  | .feed _ => true
  | .fill _ _ => true
  | .final => true
  | .stepF _ => true
  | .stepG _ => true
  | .stepH _ => true
  | .stepI _ => true
  | .compress => true
  | .pushbyte _ => true
  | .feedbytes n src => src.supplies n
  | .serialize => true

end Sys2Proof
end

