-- ==== Sys2Proof/Decode.lean ====
section
/-! DEFINITION. The two encoded formats (R60): the 32-bit command word CMD (R61 to R66) and the 6-bit step index STEP (R68, R69).
The decoder is total and rejects by name; the encoder is written from the same rules; `decodeTableWord` is the host's question. -/

namespace Sys2Proof

/-- Why a word is illegal (R66); every one of these raises Fault(ILLEGAL_CMD) at the CMD port. -/
inductive Reject where
  /-- OP is 0x0 or 0x5 .. 0xF. -/
  | opcode
  /-- RSV1 is not 0. -/
  | rsv1
  /-- VALUE is not 0 in INIT, FEED or FINAL. -/
  | value
  /-- LEN is not 0 in INIT or FINAL. -/
  | len
  /-- Not a word at all: PUSHBYTE, FEEDBYTES, COMPRESS and SERIALIZE have no encoding (R60, R77). -/
  | unencoded
  deriving DecidableEq, Repr

/-- What an instruction is encoded as: a command word, a step index, or nothing (R60). -/
inductive Code where
  | cmd (w : Word)
  | step (i : BitVec 6)
  | unencoded
  deriving DecidableEq, Repr

/-- OP = CMD[31:28] (R61). -/
def fieldOp (w : Word) : BitVec 4 := w.extractLsb' 28 4
/-- RSV1 = CMD[27:24] (R61). -/
def fieldRsv1 (w : Word) : BitVec 4 := w.extractLsb' 24 4
/-- VALUE = CMD[23:16] (R61). -/
def fieldValue (w : Word) : Byte := w.extractLsb' 16 8
/-- LEN = CMD[15:0], called COUNT in FILL (R61). -/
def fieldLen (w : Word) : BitVec 16 := w.extractLsb' 0 16

/-- The round r = i[5:4] of a step index (R68). -/
def fieldRound (i : BitVec 6) : BitVec 2 := i.extractLsb' 4 2
/-- The position j = i[3:0] of a step index (R68). -/
def fieldPos (i : BitVec 6) : BitVec 4 := i.extractLsb' 0 4

/-- Decode a command word (R61 to R66). -/
def decodeCmd (w : Word) : Except Reject Instr :=
  if fieldRsv1 w ≠ 0 then .error .rsv1
  else if fieldOp w = 1 then
    if fieldValue w ≠ 0 then .error .value
    else if fieldLen w ≠ 0 then .error .len
    else .ok .init
  else if fieldOp w = 2 then
    if fieldValue w ≠ 0 then .error .value
    else .ok (.feed (fieldLen w))
  else if fieldOp w = 3 then .ok (.fill (fieldValue w) (fieldLen w))
  else if fieldOp w = 4 then
    if fieldValue w ≠ 0 then .error .value
    else if fieldLen w ≠ 0 then .error .len
    else .ok .final
  else .error .opcode

/-- Decode a step index (R68, R69): every 6-bit value is a valid step. -/
def decodeStep (i : BitVec 6) : Instr :=
  if fieldRound i = 0 then .stepF (fieldPos i)
  else if fieldRound i = 1 then .stepG (fieldPos i)
  else if fieldRound i = 2 then .stepH (fieldPos i)
  else .stepI (fieldPos i)

/-- Decode either format. -/
def decode : Code → Except Reject Instr
  | .cmd w => decodeCmd w
  | .step i => .ok (decodeStep i)
  | .unencoded => .error .unencoded

/-- Lay the four fields of format CMD side by side (R61). -/
def cmdWord (op rsv1 : BitVec 4) (value : Byte) (len : BitVec 16) : Word := op ++ rsv1 ++ value ++ len

/-- Lay the two fields of format STEP side by side (R68). -/
def stepIndex (r : BitVec 2) (j : BitVec 4) : BitVec 6 := r ++ j

/-- The encoder (R62 to R65, R69, R77). -/
def encode : Instr → Code
  | .init => .cmd (cmdWord 1 0 0 0)
  | .feed len => .cmd (cmdWord 2 0 0 len)
  | .fill value count => .cmd (cmdWord 3 0 value count)
  | .final => .cmd (cmdWord 4 0 0 0)
  | .stepF j => .step (stepIndex 0 j)
  | .stepG j => .step (stepIndex 1 j)
  | .stepH j => .step (stepIndex 2 j)
  | .stepI j => .step (stepIndex 3 j)
  | .compress => .unencoded
  | .pushbyte _ => .unencoded
  | .feedbytes _ _ => .unencoded
  | .serialize => .unencoded

/-- The code a row of the opcode table with `nbits` bits stands for: 32 bits are a command word, 6 bits (8 in whole bytes) a
step index; no other width is encoded, and a value that does not fit the format is no code of it. -/
def tableCode (nbits w : Nat) : Code :=
  if nbits = 32 then (if w < 2 ^ 32 then .cmd (BitVec.ofNat 32 w) else .unencoded)
  else if nbits = 8 ∨ nbits = 6 then (if w < 64 then .step (BitVec.ofNat 6 w) else .unencoded)
  else .unencoded

/-- The instruction the decoder reads from an opcode-table word (the host's question). -/
def decodeTableWord (nbits w : Nat) : Option Instr :=
  match decode (tableCode nbits w) with
  | .ok i => some i
  | .error _ => none

end Sys2Proof
end

