-- ==== Sys2Proof/Machine/Tables.lean ====
section
/-! DEFINITION. The constant tables T, S, K and the other constants (spec/40_constant_tables.md R80 to R86). They are not state
(R34): no command can change them. T is the literal table, S and K are their closed forms, as R86 allows. -/

namespace Sys2Proof.Machine

/-- T[0..15] (R81). -/
def tRound0 : List Word :=
  [0xD76AA478, 0xE8C7B756, 0x242070DB, 0xC1BDCEEE, 0xF57C0FAF, 0x4787C62A, 0xA8304613, 0xFD469501,
   0x698098D8, 0x8B44F7AF, 0xFFFF5BB1, 0x895CD7BE, 0x6B901122, 0xFD987193, 0xA679438E, 0x49B40821]

/-- T[16..31] (R81). -/
def tRound1 : List Word :=
  [0xF61E2562, 0xC040B340, 0x265E5A51, 0xE9B6C7AA, 0xD62F105D, 0x02441453, 0xD8A1E681, 0xE7D3FBC8,
   0x21E1CDE6, 0xC33707D6, 0xF4D50D87, 0x455A14ED, 0xA9E3E905, 0xFCEFA3F8, 0x676F02D9, 0x8D2A4C8A]

/-- T[32..47] (R81). -/
def tRound2 : List Word :=
  [0xFFFA3942, 0x8771F681, 0x6D9D6122, 0xFDE5380C, 0xA4BEEA44, 0x4BDECFA9, 0xF6BB4B60, 0xBEBFBC70,
   0x289B7EC6, 0xEAA127FA, 0xD4EF3085, 0x04881D05, 0xD9D4D039, 0xE6DB99E5, 0x1FA27CF8, 0xC4AC5665]

/-- T[48..63] (R81). -/
def tRound3 : List Word :=
  [0xF4292244, 0x432AFF97, 0xAB9423A7, 0xFC93A039, 0x655B59C3, 0x8F0CCC92, 0xFFEFF47D, 0x85845DD1,
   0x6FA87E4F, 0xFE2CE6E0, 0xA3014314, 0x4E0811A1, 0xF7537E82, 0xBD3AF235, 0x2AD7D2BB, 0xEB86D391]

/-- The T ROM, 64 words (R81). -/
def tTable : List Word := tRound0 ++ tRound1 ++ tRound2 ++ tRound3

/-- T[i] (R42, R81); the index has 6 bits and the table 64 entries, so no access is out of range. -/
def tableT (i : BitVec 6) : Word := tTable.getD i.toNat 0

/-- SROW[r], the four rotation amounts of round r (R82). -/
def sRow (r : BitVec 2) : List Nat :=
  if r = 0 then [7, 12, 17, 22]
  else if r = 1 then [5, 9, 14, 20]
  else if r = 2 then [4, 11, 16, 23]
  else [6, 10, 15, 21]

/-- S[i] = SROW[i / 16][i mod 4] (R82). -/
def tableS (i : BitVec 6) : Nat := (sRow (fieldRound i)).getD (i.toNat % 4) 0

/-- K[i] = k(i), the message-word index (R83). -/
def tableK (i : BitVec 6) : Nat :=
  if fieldRound i = 0 then i.toNat
  else if fieldRound i = 1 then (5 * i.toNat + 1) % 16
  else if fieldRound i = 2 then (3 * i.toNat + 5) % 16
  else (7 * i.toNat) % 16

/-- The IV (R85). -/
def iv : Quad := ⟨0x67452301, 0xEFCDAB89, 0x98BADCFE, 0x10325476⟩

/-- The padding marker byte, "the mandatory single set-bit byte" (R85, R133). -/
def markerByte : Byte := 0x80

/-- The padding fill byte (R85, R134). -/
def fillByte : Byte := 0x00

end Sys2Proof.Machine
end

