-- ==== Sys2Proof/Machine/Ops.lean ====
section
/-! DEFINITION. The named operations over memory, registers and channels, and taking a fault and a reset as one operation each.
Every meaning is written over these. -/

namespace Sys2Proof.Machine

/-- `BUF[a]` (R9): the byte at an address, or no value where nothing has been written since the spec last left BUF without a value
(R36, R154, R180). -/
def Memory.read (m : Memory) (addr : Nat) : Option Byte :=
  match m with
  | [] => none
  | (x, v) :: rest => if x = addr then some v else Memory.read rest addr

/-- `MemWrite(BUF, a, 1, v)` (R9, R41), keeping the canonical form. -/
def Memory.write (m : Memory) (addr : Nat) (v : Byte) : Memory :=
  match m with
  | [] => [(addr, v)]
  | (x, u) :: rest =>
    if addr < x then (addr, v) :: (x, u) :: rest
    else if addr = x then (addr, v) :: rest
    else (x, u) :: Memory.write rest addr v

/-- The canonical form from address `lo` on: addresses strictly rising and below 64. -/
def Memory.wfFrom (lo : Nat) : Memory → Bool
  | [] => true
  | (x, _) :: rest => decide (lo ≤ x) && decide (x < 64) && Memory.wfFrom (x + 1) rest

/-- The canonical form of BUF, addresses 0 .. 63 (R40). -/
def Memory.wf (m : Memory) : Bool := Memory.wfFrom 0 m

/-- What a read of BUF gives: the byte written there, or, where there is no value, a draw (R10; log entry 4). -/
def State.bufByte (s : State) (addr : Nat) : Byte := (Memory.read s.buf addr).getD (Config.freeByte s.draws addr)

/-- `X[k] = MemRead(BUF, 4k, 4)`, little-endian (R44). -/
def State.messageWord (s : State) (k : Nat) : Word :=
  leWord (s.bufByte (4 * k)) (s.bufByte (4 * k + 1)) (s.bufByte (4 * k + 2)) (s.bufByte (4 * k + 3))

/-- The 64 bytes of BUF as COMPRESS sees them (R40, R90). -/
def State.block (s : State) : List Byte := (List.range 64).map s.bufByte

/-- (A, B, C, D) as one quadruple (R21). -/
def State.chain (s : State) : Quad := ⟨s.A, s.B, s.C, s.D⟩

/-- (a, b, c, d) as one quadruple (R22). -/
def State.work (s : State) : Quad := ⟨s.a, s.b, s.c, s.d⟩

/-- `(A, B, C, D) <- q`, all at once (R9). -/
def State.setChain (s : State) (q : Quad) : State := { s with A := q.a, B := q.b, C := q.c, D := q.d }

/-- `(a, b, c, d) <- q`, all at once (R9, R103). -/
def State.setWork (s : State) (q : Quad) : State := { s with a := q.a, b := q.b, c := q.c, d := q.d }

/-- `CNT <- CNT +64 zext_64(n)` (R113). -/
def State.count (s : State) (n : BitVec 16) : State := { s with cnt := s.cnt + n.setWidth 64 }

/-- The store of PUSHBYTE: `BUF[OFF] <- v` and `OFF <- OFF + 1` (R41, R111). It is used with OFF at most 63 only: execPushbyte
tests that, and FEEDBYTES compresses a full buffer first (R112); address 64 does not exist and nothing is stored there. -/
def State.storeByte (s : State) (v : Byte) : State :=
  if h : s.off.val < 64 then { s with buf := Memory.write s.buf s.off.val v, off := ⟨s.off.val + 1, by omega⟩ }
  else s

/-- A draw of everything R154 leaves unspecified: `A, B, C, D, CNT, OFF, BUF[0..63] <- unspecified`. BUF is left with no value at
any address: a read of it is then a draw (`State.bufByte`). -/
def State.drawData (s : State) : State :=
  { s with
    A := Config.freeWord .chainA s.draws
    B := Config.freeWord .chainB s.draws
    C := Config.freeWord .chainC s.draws
    D := Config.freeWord .chainD s.draws
    cnt := Config.freeCount s.draws
    off := Config.freeOffset s.draws
    buf := []
    draws := s.draws + 1 }

/-- The fault record of `raise Fault(code)` (R154, R158): the first code after reset is kept, ERR is sticky, PHASE is FAULTED, and
the command ends. -/
def State.recordFault (s : State) (code : ErrCode) : State :=
  { s with
    errcode := if s.err then s.errcode else code
    err := true
    phase := .faulted
    transfer := none }

/-- TAKING A FAULT, `raise Fault(code)` (R154): the record, and the data state left without a value. -/
def raiseFault (code : ErrCode) (s : State) : State := (s.recordFault code).drawData

/-- A draw of the compressor's locals, for RESET (R180): a, b, c, d and i. -/
def State.drawWork (s : State) : State :=
  { s with
    a := Config.freeWord .workA s.draws
    b := Config.freeWord .workB s.draws
    c := Config.freeWord .workC s.draws
    d := Config.freeWord .workD s.draws
    i := Config.freeStep s.draws
    draws := s.draws + 1 }

/-- The control part of RESET (R180): PHASE, ERR, ERRCODE, the command in progress abandoned, DIN emptied; the request is served.
DESIGN CHOICE, log entries 9 and 18: DIN is emptied of every byte in it when RESET is served, the words on CMD stay. -/
def State.resetControl (s : State) : State :=
  { s with
    phase := .idle
    err := false
    errcode := .none
    transfer := none
    compressing := false
    din := []
    resetIn := false
    comps := 0 }

/-- RESET (R180): the control part, and `A, B, C, D, a, b, c, d, CNT, OFF, BUF[0..63], i <- unspecified`. -/
def resetCore (s : State) : State := s.resetControl.drawData.drawWork

end Sys2Proof.Machine
end

