-- ==== Sys2Proof/Machine/Flags.lean ====
section
/-! DEFINITION. The core has no arithmetic flags (R37). Here are the two conditions it evaluates, the status bits, and the faults'
choice by phase. -/

namespace Sys2Proof.Machine

/-- `OFF == 64` (R37, R111, R112). -/
def State.bufferFull (s : State) : Bool := decide (s.off.val = 64)

/-- `64 - OFF < 8`: the length field does not fit in the current block (R37, R134). -/
def State.lengthDoesNotFit (s : State) : Bool := decide (64 - s.off.val < 8)

/-- PHASE as its two bits (R27). -/
def Phase.bits : Phase → BitVec 2
  | .idle => 0
  | .active => 1
  | .done => 2
  | .faulted => 3

/-- ERRCODE as its three bits (R152). -/
def ErrCode.bits : ErrCode → BitVec 3
  | .none => 0
  | .illegalCmd => 1
  | .notInitialised => 2
  | .feedAfterFinal => 3
  | .finalAfterFinal => 4

/-- DV, digest valid: 1 if and only if PHASE = DONE (R29, R30). -/
def State.digestValid (s : State) : Bool := decide (s.phase = .done)

/-- A command is in progress: a FEED is holding, or a compression is running (R184, R187).
DESIGN CHOICE, log entry 16: a word issued on CMD that no step has taken yet is no command in progress.
DESIGN CHOICE, log entry 18: a RESET asserted and not yet served does not count either, so a read then shows what stood before it. -/
def State.busy (s : State) : Bool := s.transfer.isSome || s.compressing

/-- STATUS (R29): bit 7 zero, [6:4] ERRCODE, [3] DV, [2] ERR, [1:0] PHASE. -/
def State.status (s : State) : BitVec 8 :=
  (0 : BitVec 1) ++ s.errcode.bits ++ BitVec.ofBool s.digestValid ++ BitVec.ofBool s.err ++ s.phase.bits

/-- The fault of a FEED or FILL outside phase ACTIVE (R114, R117, R153). -/
def feedFault : Phase → ErrCode
  | .idle => .notInitialised
  | .active => .none
  | .done => .feedAfterFinal
  | .faulted => .notInitialised

/-- The fault of a FINAL outside phase ACTIVE (R131, R153). -/
def finalFault : Phase → ErrCode
  | .idle => .notInitialised
  | .active => .none
  | .done => .finalAfterFinal
  | .faulted => .notInitialised

end Sys2Proof.Machine
end

