-- ==== Sys2Proof/Machine/Operands.lean ====
section
/-! DEFINITION. The operand forms: the parameters a step takes from its index (R69), the message word (R44), the bytes a source
supplies (R113), and the padding's bit length (R71). -/

namespace Sys2Proof.Machine

/-- F(b,c,d) = (b AND c) OR (NOT b AND d) (R92). -/
def auxF (b c d : Word) : Word := (b &&& c) ||| (~~~b &&& d)

/-- G(b,c,d) = (b AND d) OR (c AND NOT d) (R93). -/
def auxG (b c d : Word) : Word := (b &&& d) ||| (c &&& ~~~d)

/-- H(b,c,d) = b XOR c XOR d (R94). -/
def auxH (b c d : Word) : Word := b ^^^ c ^^^ d

/-- I(b,c,d) = c XOR (b OR NOT d) (R95). -/
def auxI (b c d : Word) : Word := c ^^^ (b ||| ~~~d)

/-- The auxiliary function of a round (R91). -/
def auxOf (r : BitVec 2) (b c d : Word) : Word :=
  if r = 0 then auxF b c d
  else if r = 1 then auxG b c d
  else if r = 2 then auxH b c d
  else auxI b c d

/-- `bitLength = (CNT * 8) mod 2^64` (R71, R132). -/
def bitLength (cnt : BitVec 64) : BitVec 64 := cnt <<< 3

/-- The first `n` bytes of a source that needs no DIN: n copies of a byte (R117), or the bytes of the length field (R72). -/
def sourceBytes (n : Nat) : ByteSrc → List Byte
  | .din => []
  | .const v => List.replicate n v
  | .lengthField bits => (leBytes 8 bits).take n

end Sys2Proof.Machine
end

