-- ==== Sys2Proof/Machine/Compressor.lean ====
section
/-! DEFINITION. The BlockCompressor (spec/41_block_compressor.md): STEP_F, STEP_G, STEP_H, STEP_I and COMPRESS. -/

namespace Sys2Proof.Machine

/-- The data path of STEP(i) on the working registers (R104): x is the message word X[K[i]]. -/
def stepQuad (x : Word) (i : BitVec 6) (q : Quad) : Quad :=
  let f := auxOf (fieldRound i) q.b q.c q.d
  let tmp := q.a + f + tableT i + x
  let nb := q.b + rotl32 tmp (tableS i)
  ⟨q.d, nb, q.b, q.c⟩

/-- STEP(i) (R104): a, b, c, d all at once, then `i <- i + 1`, which is not performed after i = 63. -/
def stepAt (i : BitVec 6) (s : State) : State :=
  { s.setWork (stepQuad (s.messageWord (tableK i)) i s.work) with i := if i = 63 then i else i + 1 }

/-- STEP_F (R96): STEP(i) for i = 00jjjj. -/
def execStepF (j : BitVec 4) (s : State) : Host.Outcome State Fault Refusal := .next (stepAt (stepIndex 0 j) s)

/-- STEP_G (R97): STEP(i) for i = 01jjjj. -/
def execStepG (j : BitVec 4) (s : State) : Host.Outcome State Fault Refusal := .next (stepAt (stepIndex 1 j) s)

/-- STEP_H (R98): STEP(i) for i = 10jjjj. -/
def execStepH (j : BitVec 4) (s : State) : Host.Outcome State Fault Refusal := .next (stepAt (stepIndex 2 j) s)

/-- STEP_I (R99): STEP(i) for i = 11jjjj. -/
def execStepI (j : BitVec 4) (s : State) : Host.Outcome State Fault Refusal := .next (stepAt (stepIndex 3 j) s)

/-- The opening of COMPRESS (R100): `(a,b,c,d) <- (A,B,C,D)` and `i <- 0`. -/
def State.beginCompress (s : State) : State := { s.setWork s.chain with i := 0, compressing := true }

/-- The steps of COMPRESS, each selected by the step index (R100, R102): `n` of them. -/
def runSteps (n : Nat) (s : State) : State :=
  match n with
  | 0 => s
  | k + 1 => runSteps k (stepAt s.i s)

/-- The end of COMPRESS (R100), q being the new (A,B,C,D): the registers, `OFF <- 0`, and a draw of the compressor's locals, which
"hold unspecified values outside COMPRESS" (R22, R26, D22): a, b, c, d and i. -/
def State.closeCompress (s : State) (q : Quad) : State :=
  { s with
    draws := s.draws + 1
    comps := s.comps + 1
    A := q.a
    B := q.b
    C := q.c
    D := q.d
    a := Config.freeWord .workA s.draws
    b := Config.freeWord .workB s.draws
    c := Config.freeWord .workC s.draws
    d := Config.freeWord .workD s.draws
    off := 0
    i := Config.freeStep s.draws
    compressing := false }

/-- The close of COMPRESS (R100): "old state plus the post-round registers". -/
def State.endCompress (s : State) : State := s.closeCompress (s.chain.add s.work)

/-- COMPRESS (R100): the 64 steps between its opening and its close. It is "pure and total" (R90): no test, no exception. -/
def compress (s : State) : State := (runSteps 64 s.beginCompress).endCompress

/-- COMPRESS as an instruction (R100). -/
def execCompress (s : State) : Host.Outcome State Fault Refusal := .next (compress s)

end Sys2Proof.Machine
end

