-- ==== Sys2Proof/Machine/Stream.lean ====
section
/-! DEFINITION. The StreamEngine (spec/42_stream_engine.md): INIT, PUSHBYTE, FEEDBYTES, FEED and FILL. -/

namespace Sys2Proof.Machine

/-- INIT (R110): the IV, CNT, OFF and PHASE; legal in every phase; ERR, ERRCODE, BUF and DIN are not written. -/
def execInit (s : State) : Host.Outcome State Fault Refusal :=
  .next { s.setChain iv with cnt := 0, off := 0, phase := .active, comps := 0 }

/-- PUSHBYTE(v) (R111): store, advance OFF, and compress at once when the buffer is full. -/
def pushByte (s : State) (v : Byte) : State :=
  if (s.storeByte v).bufferFull then compress (s.storeByte v) else s.storeByte v

/-- PUSHBYTE as an instruction (R111), whose precondition is OFF at most 63: at OFF = 64 there is no address to store at. -/
def execPushbyte (v : Byte) (s : State) : Host.Outcome State Fault Refusal :=
  if s.bufferFull then .fault .bufferAddress else .next (pushByte s v)

/-- One PUSHBYTE for each byte, in order (R113). -/
def pushAll (bytes : List Byte) (s : State) : State := bytes.foldl pushByte s

/-- Pop `n` bytes from DIN, or as many as are there, and push each (R113, R114); what is missing is a transfer in progress, which
holds until the host supplies it (R185, R194). -/
def pullPush (n : Nat) (s : State) : State :=
  { pushAll (s.din.take n) { s with din := s.din.drop n } with
    transfer := if s.din.length < n then some (.push (n - s.din.length)) else none }

/-- Pop `n` bytes from DIN, or as many as are there, discard them, and raise the fault once all `n` are popped (R114, R154). -/
def pullDiscard (n : Nat) (s : State) : State :=
  if s.din.length < n then { s with din := s.din.drop n, transfer := some (.discard (n - s.din.length)) }
  else raiseFault (feedFault s.phase) { s with din := s.din.drop n }

/-- R112: "compress the pending block defensively before proceeding". -/
def compressIfFull (s : State) : State := if s.bufferFull then compress s else s

/-- FEEDBYTES(n, src) (R113): nothing for n = 0; else count first, compress a full buffer (R112), then move the bytes. -/
def feedBytes (n : BitVec 16) (src : ByteSrc) (s : State) : State :=
  if n = 0 then s
  else
    match src with
    | .din => pullPush n.toNat (compressIfFull (s.count n))
    | .const v => pushAll (sourceBytes n.toNat (.const v)) (compressIfFull (s.count n))
    | .lengthField bits => pushAll (sourceBytes n.toNat (.lengthField bits)) (compressIfFull (s.count n))

/-- FEEDBYTES as an instruction (R113); its caller has checked the phase. A source that has no n bytes is no source. -/
def execFeedbytes (n : BitVec 16) (src : ByteSrc) (s : State) : Host.Outcome State Fault Refusal :=
  if src.supplies n then .next (feedBytes n src s) else .fault .lengthFieldExhausted

/-- FEED(LEN) (R114): in phase ACTIVE, FEEDBYTES of the payload; else the payload is discarded and a fault raised. -/
def execFeed (len : BitVec 16) (s : State) : Host.Outcome State Fault Refusal :=
  if s.phase = .active then .next (feedBytes len .din s) else .next (pullDiscard len.toNat s)

/-- FILL(VALUE, COUNT) (R117): in phase ACTIVE, FEEDBYTES of COUNT copies; else a fault. DIN is not touched. -/
def execFill (value : Byte) (count : BitVec 16) (s : State) : Host.Outcome State Fault Refusal :=
  if s.phase = .active then .next (feedBytes count (.const value) s) else .next (raiseFault (feedFault s.phase) s)

/-- A held FEED goes on with what DIN now has (R185, R194). -/
def resumeTransfer : Transfer → State → State
  | .push left, s => pullPush left s
  | .discard left, s => pullDiscard left s

end Sys2Proof.Machine
end

