-- ==== Sys2Proof/Machine/Finalizer.lean ====
section
/-! DEFINITION. The Finalizer (spec/43_finalizer.md): FINAL and SERIALIZE. -/

namespace Sys2Proof.Machine

/-- The marker byte (R133). -/
def padMarker (s : State) : State := feedBytes 1 (.const markerByte) s

/-- If fewer than 8 bytes remain, zero-fill the rest of the block (R134). -/
def padBlock (s : State) : State :=
  if s.lengthDoesNotFit then feedBytes (BitVec.ofNat 16 (64 - s.off.val)) (.const fillByte) s else s

/-- Zero bytes "until exactly 8 bytes of space remain" (R134). -/
def padZeros (s : State) : State := feedBytes (BitVec.ofNat 16 (64 - s.off.val - 8)) (.const fillByte) s

/-- The length field, which "both completes and compresses the final block" (R135). -/
def padLength (bits : BitVec 64) (s : State) : State := feedBytes 8 (.lengthField bits) s

/-- FINAL in phase ACTIVE (R131): the bit length is captured before any padding byte is counted (R132). -/
def finalize (s : State) : State :=
  { padLength (bitLength s.cnt) (padZeros (padBlock (padMarker s))) with phase := .done }

/-- FINAL (R131). -/
def execFinal (s : State) : Host.Outcome State Fault Refusal :=
  if s.phase = .active then .next (finalize s) else .next (raiseFault (finalFault s.phase) s)

/-- The digest bytes of four registers (R73, R136): A, B, C, D in that order, each little-endian. -/
def digestBytes (q : Quad) : List Byte := leBytes 4 q.a ++ leBytes 4 q.b ++ leBytes 4 q.c ++ leBytes 4 q.d

/-- The wiring of SERIALIZE (R73, R136): DIGEST[31:0] = A, [63:32] = B, [95:64] = C, [127:96] = D. -/
def digestWires (q : Quad) : BitVec 128 := q.d ++ q.c ++ q.b ++ q.a

/-- DIGEST as SERIALIZE wires it to A, B, C, D (R30, R136). -/
def State.digest (s : State) : BitVec 128 := digestWires s.chain

/-- SERIALIZE (R136): "pure wiring and changes no state" (R73); what it presents is `State.digest`, a view and no register
(R30). -/
def execSerialize (s : State) : Host.Outcome State Fault Refusal := .next s

end Sys2Proof.Machine
end

