-- ==== Sys2Proof/Machine/Dispatch.lean ====
section
/-! DEFINITION. One arm per instruction of spec/opcode_table.json. -/

namespace Sys2Proof.Machine

def exec (i : Instr) (s : State) : Host.Outcome State Fault Refusal :=
  match i with
  | .init => Sys2Proof.Machine.execInit s
  | .feed len => Sys2Proof.Machine.execFeed len s
  | .fill value count => Sys2Proof.Machine.execFill value count s
  | .final => Sys2Proof.Machine.execFinal s
  | .stepF j => Sys2Proof.Machine.execStepF j s
  | .stepG j => Sys2Proof.Machine.execStepG j s
  | .stepH j => Sys2Proof.Machine.execStepH j s
  | .stepI j => Sys2Proof.Machine.execStepI j s
  | .compress => Sys2Proof.Machine.execCompress s
  | .pushbyte v => Sys2Proof.Machine.execPushbyte v s
  | .feedbytes n src => Sys2Proof.Machine.execFeedbytes n src s
  | .serialize => Sys2Proof.Machine.execSerialize s

end Sys2Proof.Machine
end

