-- ==== Sys2Proof/Machine/Fetch.lean ====
section
/-! DEFINITION. What the core does next, and where it reads that from: the RESET input (R180), the step index while a compression
runs (R26, R60, R102), a held FEED (R185, R194), or the oldest word on CMD (R31, R184). -/

namespace Sys2Proof.Machine

/-- What comes next. -/
inductive Action where
  /-- RESET is asserted (R180). -/
  | reset
  /-- A compression is in progress: the micro-operation that the step index selects (R69). -/
  | micro (op : Instr)
  /-- A FEED is in progress: it takes the payload that DIN has (R185). -/
  | resume (t : Transfer)
  /-- No command in progress, none issued: "the core waits for a command" (R36). -/
  | idle
  /-- A legal command word (R62 to R65). -/
  | command (op : Instr)
  /-- An illegal command word (R66). -/
  | illegal (why : Reject)
  deriving DecidableEq, Repr

/-- Read the CMD port when no command is in progress (R184). -/
def fetchCommand (s : State) : Action :=
  match s.cmd with
  | [] => .idle
  | w :: _ =>
    match decode (.cmd w) with
    | .ok op => .command op
    | .error why => .illegal why

/-- Select what comes next. RESET comes before everything ("at any moment", R180); a command in progress comes before the next
command (R184, R185). -/
def fetch (s : State) : Action :=
  if s.resetIn then .reset
  else if s.compressing then .micro (decodeStep s.i)
  else
    match s.transfer with
    | some t => .resume t
    | none => fetchCommand s

/-- A command word is consumed when its command starts (R31). -/
def takeCommand (s : State) : State := { s with cmd := s.cmd.tail }

/-- After the step with index i: the compression ends after the step with i = 63 (R26, R100, R104). -/
def closeStep (i : BitVec 6) (s : State) : State := if i = 63 then s.endCompress else s

/-- Apply `f` to a next state; a fault or a refusal stays. -/
def mapNext (f : State → State) : Host.Outcome State Fault Refusal → Host.Outcome State Fault Refusal
  | .next s => .next (f s)
  | .fault r => .fault r
  | .refused r => .refused r

/-- Put a command word where the next step fetches it: first on CMD, with nothing before it in progress. -/
def placeCommand (w : Word) (s : State) : State :=
  { s with cmd := w :: s.cmd, resetIn := false, compressing := false, transfer := none }

/-- Put a step index where the next step fetches it: in i, with a compression in progress. -/
def placeStep (i : BitVec 6) (s : State) : State := { s with i := i, resetIn := false, compressing := true }

end Sys2Proof.Machine
end

