-- ==== Sys2Proof/Machine/Step.lean ====
section
/-! DEFINITION. One step of the core: a whole command (commands are atomic, R184), or, inside a compression, one micro-operation;
and the host's way to place one instruction for the next step. Everything it does is in Machine/Fetch.lean and exec. -/

namespace Sys2Proof.Machine

/-- One step. -/
def step (s : State) : Host.Outcome State Fault Refusal :=
  match fetch s with
  | .reset => .next (resetCore s)
  | .micro op => mapNext (closeStep s.i) (exec op s)
  | .resume t => .next (resumeTransfer t s)
  | .idle => .next s
  | .command op => exec op (takeCommand s)
  | .illegal _ => .next (raiseFault .illegalCmd (takeCommand s))

/-- The state with one instruction placed where step fetches its next (log entry 7): a 32-bit word on CMD, or a step index. -/
def State.withFetchWord (s : State) (nbits w : Nat) : State :=
  if nbits = 32 then placeCommand (BitVec.ofNat 32 w) s
  else if nbits = 8 ∨ nbits = 6 then placeStep (BitVec.ofNat 6 w) s
  else s

end Sys2Proof.Machine
end

