-- ==== Sys2Proof/Machine/Ports.lean ====
section
/-! DEFINITION. The host's side (spec/70_reset_and_hazards.md R183, spec/20_memory.md R50): what it may send and what it may read. -/

namespace Sys2Proof.Machine

/-- The host issues one command word on CMD (R31). -/
def hostCommand (w : Word) (s : State) : State := { s with cmd := s.cmd ++ [w] }

/-- The host supplies payload bytes on DIN (R32), before or after the word they belong to (R183). -/
def hostData (bytes : List Byte) (s : State) : State := { s with din := s.din ++ bytes }

/-- The host asserts RESET, at any moment (R180). DESIGN CHOICE, log entries 9 and 18: its effect comes with the next step; until
then reads show what stood before it, and the bytes supplied in between are emptied with the rest of DIN. -/
def hostReset (s : State) : State := { s with resetIn := true }

/-- A draw for one unspecified read: the counter moves on, nothing else does. -/
def State.nextDraw (s : State) : State := { s with draws := s.draws + 1 }

/-- The host samples STATUS (R29): between commands the status bits, else any value (R187). What it
shows while a RESET is not yet served is log entry 18. -/
def hostStatus (s : State) : BitVec 8 × State :=
  if s.busy then (Config.freeStatus s.draws, s.nextDraw) else (s.status, s)

/-- The host samples DIGEST (R30): with DV = 1 and between commands the digest, else any value (R187).
What it shows while a RESET is not yet served is log entry 18. -/
def hostDigest (s : State) : BitVec 128 × State :=
  if s.digestValid && !s.busy then (s.digest, s) else (Config.freeDigest s.draws, s.nextDraw)

/-- The host samples one DIGEST quarter, register 1 + q (R50, R73). -/
def hostQuarter (q : Nat) (s : State) : Word × State :=
  if s.digestValid && !s.busy then (s.digest.extractLsb' (32 * q) 32, s)
  else (Config.freeQuarter q s.draws, s.nextDraw)

/-- The host reads a numbered register (R50): 0 is STATUS, 1 to 4 are the DIGEST quarters, no other exists.
DESIGN CHOICE, log entry 17: a read moves 32 bits here, STATUS in bits 7:0 and zeros above; where STATUS stands on a wider bus is open. -/
def hostRead (number : Nat) (s : State) : Except Refusal (Word × State) :=
  if number = 0 then .ok ((hostStatus s).1.setWidth 32, (hostStatus s).2)
  else if number ≤ 4 then .ok (hostQuarter (number - 1) s)
  else .error (.noSuchRegister number)

end Sys2Proof.Machine
end

