-- ==== Sys2Proof/Machine/Driver.lean ====
section
/-! DEFINITION. The pseudo-commands COMPUTE, FEEDL and FILLL (R76, R138): sequences of commands that the host writes out; the
hardware has no opcode for them. A sequence is a list of commands, each with its payload. -/

namespace Sys2Proof.Machine

/-- The greatest byte count of one command (R6, R67). -/
def maxLen : Nat := 65535

/-- `data` cut into pieces of at most 65535 bytes; `fuel` pieces suffice when it is at least the number of pieces. -/
def pieces (fuel : Nat) (data : List Byte) : List (List Byte) :=
  match fuel with
  | 0 => []
  | k + 1 => if data = [] then [] else data.take maxLen :: pieces k (data.drop maxLen)

/-- FEEDL (R76): ceil(n / 65535) FEED commands, each with the next at most 65535 bytes. -/
def feedl (data : List Byte) : List (Instr × List Byte) :=
  (pieces ((data.length + maxLen - 1) / maxLen) data).map fun p => (.feed (BitVec.ofNat 16 p.length), p)

/-- FILLL (R76): floor(count / 65535) FILL commands of COUNT 65535 and one of count mod 65535. -/
def filll (value : Byte) (count : Nat) : List (Instr × List Byte) :=
  List.replicate (count / maxLen) (.fill value (BitVec.ofNat 16 maxLen), []) ++
    [(.fill value (BitVec.ofNat 16 (count % maxLen)), [])]

/-- COMPUTE (R76, R138): INIT, FEEDL, FINAL. -/
def computeSeq (data : List Byte) : List (Instr × List Byte) := (.init, []) :: feedl data ++ [(.final, [])]

/-- The host issues one command with its payload: the word on CMD, the bytes on DIN (R70, R183). An instruction that is no
command has no word to issue. -/
def hostIssue (c : Instr × List Byte) (s : State) : State :=
  match encode c.1 with
  | .cmd w => hostData c.2 (hostCommand w s)
  | .step _ => s
  | .unencoded => s

/-- The host issues a sequence. -/
def hostIssueAll (cs : List (Instr × List Byte)) (s : State) : State := cs.foldl (fun t c => hostIssue c t) s

end Sys2Proof.Machine
end

