-- ==== Sys2Proof/Machine/Instances.lean ====
section
/-! DEFINITION. N_INST instances (R6, R165): "a model of N_INST instances is the product of N_INST independent models". The
product is a list of states, N_INST is its length, and one instance moves at a time. -/

namespace Sys2Proof.Machine

/-- Instance `k` makes one step; no other instance is read or written (R165). A number that is no instance moves nothing.
DESIGN CHOICE, log entry 15: two instances at the same draw number draw the same free value, which the spec leaves open. -/
def stepInstance (k : Nat) (cores : List State) : Host.Outcome (List State) Fault Refusal :=
  match cores[k]? with
  | none => .next cores
  | some s =>
    match step s with
    | .next t => .next (cores.set k t)
    | .fault r => .fault r
    | .refused r => .refused r

end Sys2Proof.Machine
end

