-- ==== Sys2Proof/Machine/Reference.lean ====
section
/-! DEFINITION. The digest as a function of the message alone, in the closed form of R143: no buffer, no offset, no counter. Claims
about the machine are stated against it. -/

namespace Sys2Proof.Machine

/-- Word k of a 64-byte block (R44), the block being a list of bytes. -/
def blockWord (block : List Byte) (k : Nat) : Word :=
  leWord (block.getD (4 * k) 0) (block.getD (4 * k + 1) 0) (block.getD (4 * k + 2) 0) (block.getD (4 * k + 3) 0)

/-- The steps with the indices `from`, `from + 1`, ..., `n` of them, on a block (R102, R104). -/
def blockSteps (block : List Byte) (first n : Nat) (q : Quad) : Quad :=
  match n with
  | 0 => q
  | k + 1 =>
    blockSteps block (first + 1) k
      (stepQuad (blockWord block (tableK (BitVec.ofNat 6 first))) (BitVec.ofNat 6 first) q)

/-- CF (R90): the pure compression function on (A,B,C,D) and a 64-byte block. -/
def compressBlock (h : Quad) (block : List Byte) : Quad := h.add (blockSteps block 0 64 h)

/-- H_t (R143): the chaining value after the first `t` blocks of a byte sequence. -/
def chainBlocks (t : Nat) (h : Quad) (bytes : List Byte) : Quad :=
  match t with
  | 0 => h
  | k + 1 => chainBlocks k (compressBlock h (bytes.take 64)) (bytes.drop 64)

/-- The chaining value over the whole blocks of a message (R35 item 4, R143). -/
def chainOf (msg : List Byte) : Quad := chainBlocks (msg.length / 64) iv msg

/-- z, the number of zero bytes of the padding, p being the message length mod 64 (R134). -/
def zeroCount (p : Nat) : Nat := if p ≤ 55 then 55 - p else 119 - p

/-- P(M), the padded message (R143). -/
def padded (msg : List Byte) : List Byte :=
  msg ++ markerByte :: List.replicate (zeroCount (msg.length % 64)) fillByte ++
    leBytes 8 (BitVec.ofNat 64 (8 * msg.length))

/-- The digest registers of a message: H_t over all the blocks of P(M) (R143). -/
def md5Chain (msg : List Byte) : Quad := chainOf (padded msg)

/-- The 16 digest bytes of a message (R138, R143). -/
def md5 (msg : List Byte) : List Byte := digestBytes (md5Chain msg)

end Sys2Proof.Machine
end

