-- ==== Sys2Proof/Safety.lean ====
section
/-! DEFINITION. The terms claims use: the invariant of command boundaries (R35), what it means that a state holds a message
(R35 item 4, R143), and the parts of a state that an instruction leaves unchanged. -/

namespace Sys2Proof

open Machine

/-- The payload bytes that CNT has counted and BUF has not yet received: those of a held FEED (R113, R185). -/
def Machine.State.owed (s : State) : Nat :=
  match s.transfer with
  | some (.push left) => left
  | some (.discard _) => 0
  | none => 0

/-- What holds between steps with no compression in progress: BUF is canonical; the fault record is consistent (R28, R29); a held
FEED fits its phase and still wants between 1 and 65535 bytes (R114, R194); OFF is at most 63 while a message is open and
0 after FINAL (R35 items 1 and 5); and CNT counts, mod 2^64, 64 bytes per compression since INIT, the pending bytes and
the bytes still owed (R35 items 3 and 6). -/
structure Inv (s : State) : Prop where
  bufCanonical : s.buf.wf = true
  notCompressing : s.compressing = false
  errorCode : s.errcode = .none ↔ s.err = false
  faultedSaysErr : s.phase = .faulted → s.err = true
  pushHeld : ∀ left, s.transfer = some (.push left) → s.phase = .active ∧ 1 ≤ left ∧ left ≤ 65535
  discardHeld : ∀ left, s.transfer = some (.discard left) → s.phase ≠ .active ∧ 1 ≤ left ∧ left ≤ 65535
  activeOffset : s.phase = .active → s.off.val ≤ 63
  doneOffset : s.phase = .done → s.off.val = 0
  counted : s.phase = .active ∨ s.phase = .done →
    s.cnt.toNat = (64 * s.comps + s.off.val + s.owed) % 2 ^ 64

/-- The core holds the message `msg`: INIT is done, exactly the bytes `msg` were fed since, and no command is in progress
(R35 item 4, R143). -/
structure Holds (msg : List Byte) (s : State) : Prop where
  active : s.phase = .active
  boundary : s.transfer = none
  chain : s.chain = chainOf msg
  count : s.cnt = BitVec.ofNat 64 msg.length
  offset : s.off.val = msg.length % 64
  pending : ∀ j, j < msg.length % 64 → s.buf.read j = msg[64 * (msg.length / 64) + j]?
  blocks : s.comps = msg.length / 64

/-- The pending bytes BUF[0 .. OFF-1], in arrival order (R24). -/
def Machine.State.pendingBytes (s : State) : List Byte := (List.range s.off.val).map s.bufByte

/-- What pushing `bytes` one after the other does to a state whose OFF is at most 63 (R41, R111, R113), and that it does nothing
else. Byte m is stored at address (OFF + m) mod 64; the 64th byte of a block is followed at once by COMPRESS. -/
structure Pushed (bytes : List Byte) (s t : State) : Prop where
  /-- OFF (R113). -/
  offset : t.off.val = (s.off.val + bytes.length) % 64
  /-- The number of compressions (R113). -/
  blocks : t.comps = s.comps + (s.off.val + bytes.length) / 64
  /-- The chaining registers: CF over the whole blocks of the pending bytes followed by the new ones (R52, R111). -/
  chain : t.chain = chainBlocks ((s.off.val + bytes.length) / 64) s.chain (s.pendingBytes ++ bytes)
  /-- The pending bytes afterwards: what is left after the whole blocks (R24). -/
  pending : t.pendingBytes = (s.pendingBytes ++ bytes).drop (64 * ((s.off.val + bytes.length) / 64))
  /-- The bytes stored, a later one over an earlier one at the same address (R41). -/
  stored : ∀ m, m < bytes.length → bytes.length ≤ m + 64 → t.buf.read ((s.off.val + m) % 64) = bytes[m]?
  /-- Every byte at an address nothing is stored at reads as before. -/
  kept : ∀ addr, (∀ m, m < bytes.length → (s.off.val + m) % 64 ≠ addr) → t.buf.read addr = s.buf.read addr
  /-- Without a compression the compressor's locals and the draw number are untouched; each compression makes one draw. -/
  quiet : s.off.val + bytes.length < 64 → t.work = s.work ∧ t.i = s.i
  draws : t.draws = s.draws + (s.off.val + bytes.length) / 64
  /-- No compression is left running. -/
  settled : s.compressing = false → t.compressing = false
  /-- BUF stays canonical. -/
  canonical : s.buf.wf = true → t.buf.wf = true
  /-- CNT, PHASE, the fault record, the transfer, and what the host has sent are untouched. -/
  cnt : t.cnt = s.cnt
  phase : t.phase = s.phase
  err : t.err = s.err
  errcode : t.errcode = s.errcode
  transfer : t.transfer = s.transfer
  resetIn : t.resetIn = s.resetIn
  cmd : t.cmd = s.cmd
  din : t.din = s.din

/-- The bytes FEEDBYTES(n, src) moves (R113). -/
def bytesMoved (n : BitVec 16) (src : ByteSrc) (s : State) : List Byte :=
  match src with
  | .din => s.din.take n.toNat
  | .const v => List.replicate n.toNat v
  | .lengthField bits => (leBytes 8 bits).take n.toNat

/-- DIN after FEEDBYTES(n, src): only the source `DIN.pop` takes from it (R113, R117). -/
def dinAfter (n : BitVec 16) (src : ByteSrc) (s : State) : List Byte :=
  match src with
  | .din => s.din.drop n.toNat
  | .const _ => s.din
  | .lengthField _ => s.din

/-- The trailer that FINAL feeds: the marker, z zero bytes, the 8-byte bit length of what CNT says (R130 to R135). -/
def trailer (s : State) : List Byte :=
  markerByte :: List.replicate (zeroCount s.off.val) fillByte ++ leBytes 8 (bitLength s.cnt)

/-- The states reached from an INIT by FEED and FILL commands only, with the bytes they fed, in order (R43, R139). Between two
commands the host does what it likes with CMD and DIN. -/
inductive FedSinceInit : List Byte → State → Prop where
  | init (s t : State) : s.transfer = none → s.compressing = false → exec .init s = .next t → FedSinceInit [] t
  | host (msg : List Byte) (s : State) (cmd : List Word) (din : List Byte) :
      FedSinceInit msg s → FedSinceInit msg { s with cmd := cmd, din := din }
  | feed (msg payload rest : List Byte) (len : BitVec 16) (s t : State) :
      FedSinceInit msg s → s.din = payload ++ rest → payload.length = len.toNat → exec (.feed len) s = .next t →
        FedSinceInit (msg ++ payload) t
  | fill (msg : List Byte) (value : Byte) (count : BitVec 16) (s t : State) :
      FedSinceInit msg s → exec (.fill value count) s = .next t →
        FedSinceInit (msg ++ List.replicate count.toNat value) t

/-- Two states that differ at most in stale bytes of BUF, those at OFF and above (R24, R33). -/
def SameButStale (s t : State) : Prop :=
  { t with buf := s.buf } = s ∧ ∀ j, j < s.off.val → t.buf.read j = s.buf.read j

/-- The step is ready to start a command: RESET is not asserted and no command is in progress (R184). -/
def Ready (s : State) : Prop := s.resetIn = false ∧ s.compressing = false ∧ s.transfer = none

end Sys2Proof
end

