-- ==== Sys2Proof/Certificates/Slice0/Obligations.lean ====
section
/-! DEFINITION. The statements for the provers. Each says in its docstring which rule of spec/ it formalises. -/

open Sys2Proof Sys2Proof.Machine

/-! ## Encoding -/

/-- Words written out from R61 to R69 decode to the instruction they stand for (sanity). -/
def Obligations.WrittenOutWordsDecode : Prop :=
  decodeCmd 0b0001_0000_0000_0000_0000_0000_0000_0000 = .ok .init ∧
  decodeCmd 0b0010_0000_0000_0000_0000_0000_0000_0011 = .ok (.feed 3) ∧
  decodeCmd 0b0011_0000_0110_0001_0000_0000_0100_0000 = .ok (.fill 0x61 64) ∧
  decodeCmd 0b0100_0000_0000_0000_0000_0000_0000_0000 = .ok .final ∧
  decodeStep 0b000101 = .stepF 5 ∧
  decodeStep 0b010000 = .stepG 0 ∧
  decodeStep 0b101111 = .stepH 15 ∧
  decodeStep 0b110001 = .stepI 1

/-- Every instruction with an encoding is read back from it, with every operand at every value (R61 to R65, R68, R69). -/
def Obligations.DecodeOfEncode : Prop :=
  ∀ i : Instr, encode i ≠ .unencoded → decode (encode i) = .ok i

/-- Every code that decodes is the code of the instruction it decodes to: each code has one meaning (R61 to R69). -/
def Obligations.EncodeOfDecode : Prop :=
  ∀ (c : Code) (i : Instr), decode c = .ok i → encode i = c

/-- R66. A word is legal exactly when it matches one of the four (match, mask) pairs; equivalently, by fields; an illegal word
raises ILLEGAL_CMD in every phase and takes no DIN byte; all zeros and all ones are illegal; a FEED or FILL of length 0 is legal
and changes nothing in phase ACTIVE. (That the fault is a next state is the model's reading, log entry 5; that CMD is a list of
words is log entry 9.) -/
def Obligations.IllegalWordsFault : Prop :=
  (∀ w : Word, (∃ i, decodeCmd w = .ok i) ↔
    (w &&& 0xFFFFFFFF = 0x10000000 ∨ w &&& 0xFFFF0000 = 0x20000000 ∨
      w &&& 0xFF000000 = 0x30000000 ∨ w &&& 0xFFFFFFFF = 0x40000000)) ∧
  (∀ w : Word, (∃ why, decodeCmd w = .error why) ↔
    ((w.extractLsb' 28 4 = 0 ∨ 5 ≤ (w.extractLsb' 28 4).toNat) ∨ w.extractLsb' 24 4 ≠ 0 ∨
      ((w.extractLsb' 28 4 = 1 ∨ w.extractLsb' 28 4 = 4) ∧ w.extractLsb' 0 24 ≠ 0) ∨
      (w.extractLsb' 28 4 = 2 ∧ w.extractLsb' 16 8 ≠ 0))) ∧
  (∀ (s : State) (w : Word) (rest : List Word) (why : Reject),
    Ready s → s.cmd = w :: rest → decodeCmd w = .error why →
      ∃ t, step s = .next t ∧ t = raiseFault .illegalCmd { s with cmd := rest } ∧ t.din = s.din) ∧
  (∃ why, decodeCmd 0x00000000 = .error why) ∧ (∃ why, decodeCmd 0xFFFFFFFF = .error why) ∧
  (decodeCmd 0x20000000 = .ok (.feed 0) ∧ ∀ v : Byte, decodeCmd (cmdWord 3 0 v 0) = .ok (.fill v 0)) ∧
  (∀ s : State, s.phase = .active → exec (.feed 0) s = .next s ∧ ∀ v : Byte, exec (.fill v 0) s = .next s)

/-- R68, R69. The upper two bits of the step index select the micro-operation and its function, the lower four are the position.
-/
def Obligations.StepIndexSelects : Prop :=
  ∀ i : BitVec 6,
    (i.toNat / 16 = 0 → decodeStep i = .stepF (BitVec.ofNat 4 (i.toNat % 16)) ∧ auxOf (fieldRound i) = auxF) ∧
    (i.toNat / 16 = 1 → decodeStep i = .stepG (BitVec.ofNat 4 (i.toNat % 16)) ∧ auxOf (fieldRound i) = auxG) ∧
    (i.toNat / 16 = 2 → decodeStep i = .stepH (BitVec.ofNat 4 (i.toNat % 16)) ∧ auxOf (fieldRound i) = auxH) ∧
    (i.toNat / 16 = 3 → decodeStep i = .stepI (BitVec.ofNat 4 (i.toNat % 16)) ∧ auxOf (fieldRound i) = auxI)

/-! ## Constant tables and primitives -/

/-- R81, R85. T is the 64 printed words, read by the step index; their sum is the one that the vectors give; the IV and the two
padding bytes. -/
def Obligations.RoundConstants : Prop :=
  (List.range 64).map (fun n => tableT (BitVec.ofNat 6 n)) =
    [0xD76AA478, 0xE8C7B756, 0x242070DB, 0xC1BDCEEE, 0xF57C0FAF, 0x4787C62A, 0xA8304613, 0xFD469501] ++
    [0x698098D8, 0x8B44F7AF, 0xFFFF5BB1, 0x895CD7BE, 0x6B901122, 0xFD987193, 0xA679438E, 0x49B40821] ++
    [0xF61E2562, 0xC040B340, 0x265E5A51, 0xE9B6C7AA, 0xD62F105D, 0x02441453, 0xD8A1E681, 0xE7D3FBC8] ++
    [0x21E1CDE6, 0xC33707D6, 0xF4D50D87, 0x455A14ED, 0xA9E3E905, 0xFCEFA3F8, 0x676F02D9, 0x8D2A4C8A] ++
    [0xFFFA3942, 0x8771F681, 0x6D9D6122, 0xFDE5380C, 0xA4BEEA44, 0x4BDECFA9, 0xF6BB4B60, 0xBEBFBC70] ++
    [0x289B7EC6, 0xEAA127FA, 0xD4EF3085, 0x04881D05, 0xD9D4D039, 0xE6DB99E5, 0x1FA27CF8, 0xC4AC5665] ++
    [0xF4292244, 0x432AFF97, 0xAB9423A7, 0xFC93A039, 0x655B59C3, 0x8F0CCC92, 0xFFEFF47D, 0x85845DD1] ++
    [0x6FA87E4F, 0xFE2CE6E0, 0xA3014314, 0x4E0811A1, 0xF7537E82, 0xBD3AF235, 0x2AD7D2BB, 0xEB86D391] ∧
  tTable.length = 64 ∧ tTable.foldl (· + ·) 0 = 0x27F3A0BC ∧
    tableT 0 = 0xD76AA478 ∧ tableT 15 = 0x49B40821 ∧ tableT 16 = 0xF61E2562 ∧ tableT 31 = 0x8D2A4C8A ∧
    tableT 32 = 0xFFFA3942 ∧ tableT 47 = 0xC4AC5665 ∧ tableT 48 = 0xF4292244 ∧ tableT 63 = 0xEB86D391 ∧
    iv = ⟨0x67452301, 0xEFCDAB89, 0x98BADCFE, 0x10325476⟩ ∧ markerByte = 0x80 ∧ fillByte = 0x00

/-- R82, R83. S and K by their closed forms are the printed tables; every rotation is by 4 to 23; each group of 16 of K is a
permutation of 0 .. 15, so that every word is used once in every round. -/
def Obligations.RotationsAndPermutation : Prop :=
  (∀ i : BitVec 6, tableS i =
    ([[7, 12, 17, 22], [5, 9, 14, 20], [4, 11, 16, 23], [6, 10, 15, 21]].getD (i.toNat / 16) []).getD (i.toNat % 4) 0) ∧
  (∀ i : BitVec 6, 4 ≤ tableS i ∧ tableS i ≤ 23) ∧
  ((List.range 64).map (fun n => tableS (BitVec.ofNat 6 n)) =
    [7, 12, 17, 22, 7, 12, 17, 22, 7, 12, 17, 22, 7, 12, 17, 22] ++
    [5, 9, 14, 20, 5, 9, 14, 20, 5, 9, 14, 20, 5, 9, 14, 20] ++
    [4, 11, 16, 23, 4, 11, 16, 23, 4, 11, 16, 23, 4, 11, 16, 23] ++
    [6, 10, 15, 21, 6, 10, 15, 21, 6, 10, 15, 21, 6, 10, 15, 21]) ∧
  (∀ i : BitVec 6, tableK i =
    if i.toNat / 16 = 0 then i.toNat else if i.toNat / 16 = 1 then (5 * i.toNat + 1) % 16
    else if i.toNat / 16 = 2 then (3 * i.toNat + 5) % 16 else (7 * i.toNat) % 16) ∧
  ((List.range 64).map (fun n => tableK (BitVec.ofNat 6 n)) =
    [0, 1, 2, 3, 4, 5, 6, 7, 8, 9, 10, 11, 12, 13, 14, 15] ++
    [1, 6, 11, 0, 5, 10, 15, 4, 9, 14, 3, 8, 13, 2, 7, 12] ++
    [5, 8, 11, 14, 1, 4, 7, 10, 13, 0, 3, 6, 9, 12, 15, 2] ++
    [0, 7, 14, 5, 12, 3, 10, 1, 8, 15, 6, 13, 4, 11, 2, 9]) ∧
  (∀ r : Fin 4, ∀ k : Fin 16, ∃! j : Fin 16, tableK (BitVec.ofNat 6 (16 * r.val + j.val)) = k.val)

/-- R92, R93. F and G bit by bit: multiplexers with b and with d as the select; the disjoint OR of F may be an exclusive OR or a
sum; their corner cases and the worked examples. -/
def Obligations.FunctionsFAndG : Prop :=
  (∀ b c d : Word,
    auxF b c d = (b &&& c) ||| (~~~b &&& d) ∧
    (b &&& c) &&& (~~~b &&& d) = 0 ∧
    auxF b c d = (b &&& c) ^^^ (~~~b &&& d) ∧
    auxF b c d = (b &&& c) + (~~~b &&& d) ∧
    (∀ n : Nat, (auxF b c d).getLsbD n = if b.getLsbD n then c.getLsbD n else d.getLsbD n) ∧
    auxF 0 c d = d ∧ auxF 0xFFFFFFFF c d = c ∧ auxF b c c = c) ∧
  (∀ b c d : Word,
    auxG b c d = (b &&& d) ||| (c &&& ~~~d) ∧
    auxG b c d = auxF d b c ∧
    (∀ n : Nat, (auxG b c d).getLsbD n = if d.getLsbD n then b.getLsbD n else c.getLsbD n) ∧
    auxG b c 0 = c ∧ auxG b c 0xFFFFFFFF = b) ∧
  auxF 0xEFCDAB89 0x98BADCFE 0x10325476 = 0x98BADCFE ∧
  auxG 0xEFCDAB89 0x98BADCFE 0x10325476 = 0x88888888

/-- R94, R95. H and I bit by bit, their corner cases and the worked examples. -/
def Obligations.FunctionsHAndI : Prop :=
  (∀ b c d : Word,
    auxH b c d = b ^^^ c ^^^ d ∧
    (∀ n : Nat, (auxH b c d).getLsbD n = ((b.getLsbD n ^^ c.getLsbD n) ^^ d.getLsbD n)) ∧
    auxH b b d = d ∧ auxH 0 0 0 = 0 ∧ auxH 0xFFFFFFFF 0xFFFFFFFF 0xFFFFFFFF = 0xFFFFFFFF) ∧
  (∀ b c d : Word,
    auxI b c d = c ^^^ (b ||| ~~~d) ∧
    (∀ n : Nat, n < 32 → (auxI b c d).getLsbD n = (c.getLsbD n ^^ (b.getLsbD n || !d.getLsbD n))) ∧
    auxI 0 0 0 = 0xFFFFFFFF ∧ auxI b c 0 = ~~~c ∧ auxI 0xFFFFFFFF c d = ~~~c ∧ auxI 0 c 0xFFFFFFFF = c) ∧
  auxH 0xEFCDAB89 0x98BADCFE 0x10325476 = 0x67452301 ∧
  auxI 0xEFCDAB89 0x98BADCFE 0x10325476 = 0x77777777

/-- R8. `rotl32` re-enters at the bottom the bits shifted out at the top; a rotation by 0 is the identity. -/
def Obligations.RotationReentersBits : Prop :=
  ∀ x : Word, rotl32 x 0 = x ∧
    ∀ s : Nat, 0 < s → s < 32 → ∀ n : Nat, n < 32 → (rotl32 x s).getLsbD n = x.getLsbD ((n + (32 - s)) % 32)

/-- R8, R44, R72. Little-endian order: a word of four bytes, the bytes of a word, and the length field as X[14] and X[15]. -/
def Obligations.LittleEndianOrder : Prop :=
  (∀ b0 b1 b2 b3 : Byte,
    (leWord b0 b1 b2 b3).toNat = b0.toNat + 2 ^ 8 * b1.toNat + 2 ^ 16 * b2.toNat + 2 ^ 24 * b3.toNat ∧
    leBytes 4 (leWord b0 b1 b2 b3) = [b0, b1, b2, b3]) ∧
  (∀ (front : List Byte) (bits : BitVec 64), front.length = 56 →
    blockWord (front ++ leBytes 8 bits) 14 = bits.extractLsb' 0 32 ∧
    blockWord (front ++ leBytes 8 bits) 15 = bits.extractLsb' 32 32)

/-- R71. The bit length is CNT times 8 mod 2^64: CNT shifted left by 3, the top three bits of CNT lost. -/
def Obligations.BitLengthOfCount : Prop :=
  ∀ cnt : BitVec 64, (bitLength cnt).toNat = (cnt.toNat * 8) % 2 ^ 64 ∧
    (bitLength cnt).extractLsb' 3 61 = cnt.extractLsb' 0 61 ∧ (bitLength cnt).extractLsb' 0 3 = 0 ∧
    ∀ other : BitVec 64, other.extractLsb' 0 61 = cnt.extractLsb' 0 61 → bitLength other = bitLength cnt

/-! ## The BlockCompressor -/

/-- R104, R103. Every step micro-operation is STEP(i): the new b from the old a, b, c, d, the constant, the word and the rotation;
the cyclic shift of the four registers at once; the index advances except after 63; nothing else changes. -/
def Obligations.StepDataPath : Prop :=
  ∀ (i : BitVec 6) (s : State),
    exec (decodeStep i) s = .next { s with
      a := s.d
      b := s.b + rotl32 (s.a + auxOf (fieldRound i) s.b s.c s.d + tableT i + s.messageWord (tableK i)) (tableS i)
      c := s.b
      d := s.c
      i := if i = 63 then i else i + 1 }

/-- R96. STEP_F, step index 00jjjj, completes from every state, with F, K[i] = i and the rotations 7, 12, 17, 22; nothing else
changes. -/
def Obligations.StepFResult : Prop :=
  ∀ (j : BitVec 4) (s : State),
    decodeStep ((0 : BitVec 2) ++ j) = .stepF j ∧
    exec (.stepF j) s = .next { s with
      a := s.d
      b := s.b + rotl32
        (s.a + ((s.b &&& s.c) ||| (~~~s.b &&& s.d)) + tableT ((0 : BitVec 2) ++ j) + s.messageWord j.toNat)
        ([7, 12, 17, 22].getD (j.toNat % 4) 0)
      c := s.b
      d := s.c
      i := BitVec.ofNat 6 (j.toNat + 1) }

/-- R97. STEP_G, step index 01jjjj, completes from every state, with G, K[i] = (5i+1) mod 16 and the rotations 5, 9, 14, 20. -/
def Obligations.StepGResult : Prop :=
  ∀ (j : BitVec 4) (s : State),
    decodeStep ((1 : BitVec 2) ++ j) = .stepG j ∧
    exec (.stepG j) s = .next { s with
      a := s.d
      b := s.b + rotl32
        (s.a + ((s.b &&& s.d) ||| (s.c &&& ~~~s.d)) + tableT ((1 : BitVec 2) ++ j) +
          s.messageWord ((5 * (16 + j.toNat) + 1) % 16))
        ([5, 9, 14, 20].getD (j.toNat % 4) 0)
      c := s.b
      d := s.c
      i := BitVec.ofNat 6 (16 + j.toNat + 1) }

/-- R98. STEP_H, step index 10jjjj, completes from every state, with H, K[i] = (3i+5) mod 16 and the rotations 4, 11, 16, 23. -/
def Obligations.StepHResult : Prop :=
  ∀ (j : BitVec 4) (s : State),
    decodeStep ((2 : BitVec 2) ++ j) = .stepH j ∧
    exec (.stepH j) s = .next { s with
      a := s.d
      b := s.b + rotl32
        (s.a + (s.b ^^^ s.c ^^^ s.d) + tableT ((2 : BitVec 2) ++ j) + s.messageWord ((3 * (32 + j.toNat) + 5) % 16))
        ([4, 11, 16, 23].getD (j.toNat % 4) 0)
      c := s.b
      d := s.c
      i := BitVec.ofNat 6 (32 + j.toNat + 1) }

/-- R99. STEP_I, step index 11jjjj, completes from every state, with I, K[i] = (7i) mod 16 and the rotations 6, 10, 15, 21; the
step index stays at 63 after the last step. -/
def Obligations.StepIResult : Prop :=
  ∀ (j : BitVec 4) (s : State),
    decodeStep ((3 : BitVec 2) ++ j) = .stepI j ∧
    exec (.stepI j) s = .next { s with
      a := s.d
      b := s.b + rotl32
        (s.a + (s.c ^^^ (s.b ||| ~~~s.d)) + tableT ((3 : BitVec 2) ++ j) + s.messageWord ((7 * (48 + j.toNat)) % 16))
        ([6, 10, 15, 21].getD (j.toNat % 4) 0)
      c := s.b
      d := s.c
      i := BitVec.ofNat 6 (if j = 15 then 63 else 48 + j.toNat + 1) }

/-- R90, R100. COMPRESS completes from every state: it adds the 64-step result into (A,B,C,D) and resets OFF; of the machine's
registers it changes only these and, transiently, a, b, c, d and i. (That it runs for every OFF, and not only for the OFF = 64 of
its precondition, is the model's choice, log entry 10.) -/
def Obligations.CompressAddsTheBlock : Prop :=
  ∀ s : State, ∃ t, exec .compress s = .next t ∧
    t.chain = compressBlock s.chain s.block ∧ t.off.val = 0 ∧
    t.buf = s.buf ∧ t.cnt = s.cnt ∧ t.phase = s.phase ∧ t.err = s.err ∧ t.errcode = s.errcode ∧
    t.transfer = s.transfer ∧ t.resetIn = s.resetIn ∧ t.cmd = s.cmd ∧ t.din = s.din

/-- R26, R100, R102. A compression taken one micro-operation at a time, each fetched by the step index, is COMPRESS: 64 steps of
the machine after its opening reach exactly the state COMPRESS leaves. (That a compression can be entered between two steps is the
model's own arrangement, log entry 7.) (That COMPRESS runs for every OFF is log entry 10, that equal draws agree log entry 15.) -/
def Obligations.SixtyFourMicroOperationsAreCompress : Prop :=
  ∀ s : State, s.resetIn = false → core.run 64 s.beginCompress = exec .compress s

/-! ## The StreamEngine -/

/-- R110. INIT, the word 0x10000000, completes from every state, in every phase: the IV, CNT 0, OFF 0, PHASE ACTIVE; BUF, a, b, c,
d, i, ERR, ERRCODE, DIN and everything else are unchanged, but for the model's own count of compressions (log entry 8); DV is then
0, and a second INIT changes nothing further. -/
def Obligations.InitResult : Prop :=
  decodeCmd 0x10000000 = .ok .init ∧ ∀ s : State, ∃ t, exec .init s = .next t ∧
    t = { s with
      A := 0x67452301, B := 0xEFCDAB89, C := 0x98BADCFE, D := 0x10325476
      cnt := 0, off := 0, phase := .active, comps := t.comps } ∧
    t.digestValid = false ∧ exec .init t = .next t

/-- R111. PUSHBYTE with OFF below 63 stores at OFF and advances it, and nothing else; with OFF = 63 it stores the 64th byte and
compresses the whole block at once, leaving OFF = 0; CNT is not written. -/
def Obligations.PushByteStores : Prop :=
  (∀ (v : Byte) (s : State) (h : s.off.val < 63), ∃ t, exec (.pushbyte v) s = .next t ∧
    t = { s with buf := s.buf.write s.off.val v, off := ⟨s.off.val + 1, by omega⟩ } ∧
    t.buf.read s.off.val = some v ∧ ∀ addr, addr ≠ s.off.val → t.buf.read addr = s.buf.read addr) ∧
  (∀ (v : Byte) (s : State), s.off.val = 63 → ∃ t, exec (.pushbyte v) s = .next t ∧
    t.chain = compressBlock s.chain ((List.range 63).map s.bufByte ++ [v]) ∧ t.off.val = 0 ∧
    t.buf.read 63 = some v ∧ (∀ addr, addr ≠ 63 → t.buf.read addr = s.buf.read addr) ∧
    t.cnt = s.cnt ∧ t.phase = s.phase ∧ t.err = s.err ∧ t.errcode = s.errcode ∧ t.transfer = s.transfer ∧
    t.resetIn = s.resetIn ∧ t.cmd = s.cmd ∧ t.din = s.din)

/-- R40, R41, R72, R111. Where the two micro-operations stop: PUSHBYTE with OFF = 64, outside its precondition, since BUF has no
address 64; and FEEDBYTES of more bytes of the length field than its 8. (That the model stops there is log entry 10.) -/
def Obligations.MicroOperationsStopOutOfRange : Prop :=
  (∀ (v : Byte) (s : State), s.off.val = 64 → exec (.pushbyte v) s = .fault .bufferAddress) ∧
  (∀ (n : BitVec 16) (bits : BitVec 64) (s : State), 8 < n.toNat →
    exec (.feedbytes n (.lengthField bits)) s = .fault .lengthFieldExhausted)

/-- R113. FEEDBYTES completes, OFF being at most 63 and its source having n bytes: CNT advances by n, the n bytes are pushed one
after the other, and nothing else changes. (`Pushed` also says how far the model's own counts advance, log entries 3 and 8.) (That
it runs in every phase, and not only in the ACTIVE of its precondition, is the model's choice, log entry 10.) -/
def Obligations.FeedBytesMoves : Prop :=
  ∀ (n : BitVec 16) (src : ByteSrc) (s : State),
    s.off.val ≤ 63 → s.transfer = none → src.supplies n = true → (src = .din → n.toNat ≤ s.din.length) →
      ∃ t, exec (.feedbytes n src) s = .next t ∧
        Pushed (bytesMoved n src s) { s with cnt := s.cnt + n.setWidth 64, din := dinAfter n src s } t

/-- R112. A transfer that starts with a full buffer compresses the pending block first and then goes on as from an empty buffer.
(That FEEDBYTES runs in every phase is log entry 10, that equal draws agree log entry 15.) -/
def Obligations.FullBufferIsCompressedFirst : Prop :=
  ∀ s : State, s.off.val = 64 →
    (∀ (n : BitVec 16) (src : ByteSrc), n ≠ 0 →
      exec (.feedbytes n src) s = exec (.feedbytes n src) (compress s)) ∧
    (s.phase = .active → ∀ n : BitVec 16, n ≠ 0 →
      exec (.feed n) s = exec (.feed n) (compress s) ∧
      ∀ v : Byte, exec (.fill v n) s = exec (.fill v n) (compress s)) ∧
    (s.phase = .active → exec .final s = exec .final (compress s))

/-- R114. FEED completes in phase ACTIVE with its payload on DIN: CNT advances by LEN, the payload is popped in order and pushed,
PHASE stays, and nothing else changes. (`Pushed` also says how far the model's own counts advance, log entries 3 and 8.) -/
def Obligations.FeedMovesThePayload : Prop :=
  ∀ (len : BitVec 16) (s : State),
    s.phase = .active → s.off.val ≤ 63 → s.transfer = none → len.toNat ≤ s.din.length →
      ∃ t, exec (.feed len) s = .next t ∧
        Pushed (s.din.take len.toNat) { s with cnt := s.cnt + len.setWidth 64, din := s.din.drop len.toNat } t

/-- R117. FILL completes in phase ACTIVE: CNT advances by COUNT, COUNT copies of VALUE are pushed, DIN is not touched, and nothing
else changes. (`Pushed` also says how far the model's own counts advance, log entries 3 and 8.) -/
def Obligations.FillMovesTheCopies : Prop :=
  ∀ (value : Byte) (count : BitVec 16) (s : State),
    s.phase = .active → s.off.val ≤ 63 →
      ∃ t, exec (.fill value count) s = .next t ∧
        Pushed (List.replicate count.toNat value) { s with cnt := s.cnt + count.setWidth 64 } t

/-- R115. In phase ACTIVE a FEED or FILL of zero bytes changes no state at all; outside it it faults like any other. (That the
fault is a next state is the model's reading, log entry 5.) -/
def Obligations.ZeroLengthIsNoOp : Prop :=
  ∀ s : State,
    (s.phase = .active → exec (.feed 0) s = .next s ∧ ∀ v : Byte, exec (.fill v 0) s = .next s) ∧
    (s.phase ≠ .active → exec (.feed 0) s = .next (raiseFault (feedFault s.phase) s) ∧
      ∀ v : Byte, exec (.fill v 0) s = .next (raiseFault (feedFault s.phase) s))

/-- R116. Where commands cut the bytes makes no difference: two FEEDs leave exactly the state that one FEED of both payloads
leaves. (That the free values of equal draws agree is log entry 15.) -/
def Obligations.TwoFeedsAreOne : Prop :=
  ∀ (n m : BitVec 16) (s : State),
    s.phase = .active → s.transfer = none → n.toNat + m.toNat < 2 ^ 16 → n.toNat + m.toNat ≤ s.din.length →
      ∃ t u, exec (.feed n) s = .next t ∧ exec (.feed m) t = .next u ∧ exec (.feed (n + m)) s = .next u

/-- R118. FILL has exactly the effect of a FEED of COUNT copies, except that it takes nothing from DIN. (That the free values of
equal draws agree is log entry 15.) -/
def Obligations.FillIsFeedOfCopies : Prop :=
  ∀ (value : Byte) (count : BitVec 16) (s : State), s.phase = .active → s.transfer = none →
    ∃ t, exec (.fill value count) s = .next t ∧
      exec (.feed count) { s with din := List.replicate count.toNat value ++ s.din } = .next t

/-- R185, R194. A FEED whose payload is not all there takes what is there and holds; when the host supplies the rest, the next
step ends it, and the state is the one a FEED with the whole payload on DIN leaves: in phase ACTIVE, where FEEDBYTES from DIN does
the same, and in the other phases, where the payload is discarded and the fault raised at the end. (The record of a held FEED is
the model's own field, log entry 6.) (That the fault is a next state is log entry 5, that equal draws agree log entry 15.) -/
def Obligations.LatePayloadMakesNoDifference : Prop :=
  ∀ (len : BitVec 16) (late : List Byte) (s : State),
    Ready s → s.din.length < len.toNat → len.toNat ≤ s.din.length + late.length →
      (s.phase = .active → ∃ t u, exec (.feed len) s = .next t ∧ exec (.feedbytes len .din) s = .next t ∧
        t.transfer = some (.push (len.toNat - s.din.length)) ∧ t.din = [] ∧
        step (hostData late t) = .next u ∧ exec (.feed len) (hostData late s) = .next u) ∧
      (s.phase ≠ .active → ∃ t u, exec (.feed len) s = .next t ∧
        t = { s with din := [], transfer := some (.discard (len.toNat - s.din.length)) } ∧
        step (hostData late t) = .next u ∧ exec (.feed len) (hostData late s) = .next u)

/-- R36, R194. The core waits: with a FEED holding and DIN empty, or with no command in progress and none issued, a step changes
nothing. (That a waiting core makes a step at all is the model's own, log entry 6.) -/
def Obligations.WaitingChangesNothing : Prop :=
  ∀ s : State, s.resetIn = false → s.compressing = false →
    (∀ left, 1 ≤ left → s.din = [] → s.transfer = some (.push left) ∨ s.transfer = some (.discard left) →
      step s = .next s) ∧
    (s.transfer = none → s.cmd = [] → step s = .next s)

/-! ## The Finalizer -/

/-- R131 to R135. FINAL completes in phase ACTIVE, OFF being at most 63: it feeds the marker, z zero bytes and the 8-byte bit
length captured before any of them is counted; CNT counts them; PHASE becomes DONE; DIN is not touched and nothing else changes.
(`Pushed` also says how far the model's own counts advance, log entries 3 and 8.) -/
def Obligations.FinalFeedsTheTrailer : Prop :=
  ∀ s : State, s.phase = .active → s.off.val ≤ 63 →
    ∃ t, exec .final s = .next t ∧ t.off.val = 0 ∧
      Pushed (trailer s)
        { s with cnt := s.cnt + BitVec.ofNat 64 (1 + zeroCount s.off.val + 8), phase := .done } t

/-- R136, R140. SERIALIZE completes from every state and changes none of it; it presents the 16 digest bytes of (A,B,C,D) on
DIGEST, byte n in bits 8n+7 .. 8n. -/
def Obligations.SerializePresentsTheDigest : Prop :=
  ∀ s : State, exec .serialize s = .next s ∧ (digestBytes s.chain).length = 16 ∧
    (∀ n, n < 16 → some (s.digest.extractLsb' (8 * n) 8) = (digestBytes s.chain)[n]?) ∧
    (∀ m, m < 4 →
      (digestBytes s.chain)[m]? = some (s.A.extractLsb' (8 * m) 8) ∧
      (digestBytes s.chain)[4 + m]? = some (s.B.extractLsb' (8 * m) 8) ∧
      (digestBytes s.chain)[8 + m]? = some (s.C.extractLsb' (8 * m) 8) ∧
      (digestBytes s.chain)[12 + m]? = some (s.D.extractLsb' (8 * m) 8))

/-! ## The message: refinement to MD5 -/

/-- R35 item 4, R110. After INIT the core holds the empty message. -/
def Obligations.InitOpensTheEmptyMessage : Prop :=
  ∀ s : State, s.transfer = none → ∃ t, exec .init s = .next t ∧ Holds [] t

/-- R35 item 4, R114, R143. FEED extends the message by its payload, taken from the front of DIN. -/
def Obligations.FeedExtendsTheMessage : Prop :=
  ∀ (msg payload rest : List Byte) (len : BitVec 16) (s : State),
    Holds msg s → s.din = payload ++ rest → payload.length = len.toNat →
      ∃ t, exec (.feed len) s = .next t ∧ Holds (msg ++ payload) t ∧ t.din = rest ∧
        t.err = s.err ∧ t.errcode = s.errcode ∧ t.cmd = s.cmd

/-- R35 item 4, R117, R143. FILL extends the message by COUNT copies of VALUE. -/
def Obligations.FillExtendsTheMessage : Prop :=
  ∀ (msg : List Byte) (value : Byte) (count : BitVec 16) (s : State), Holds msg s →
    ∃ t, exec (.fill value count) s = .next t ∧ Holds (msg ++ List.replicate count.toNat value) t ∧ t.din = s.din ∧
      t.err = s.err ∧ t.errcode = s.errcode ∧ t.cmd = s.cmd

/-- R143. The closed form, for a message fed after an INIT by any FEED and FILL commands: in phase ACTIVE (A,B,C,D) is the
chaining value over its whole blocks and BUF holds the rest; after FINAL they are the chaining value over all blocks of P(M),
whose length is a multiple of 64, and DIGEST shows its serialization, which the host reads when no word waits and no RESET is
asserted. -/
def Obligations.FinalGivesTheDigest : Prop :=
  ∀ (msg : List Byte) (s : State), FedSinceInit msg s →
    s.phase = .active ∧ s.chain = chainBlocks (msg.length / 64) iv msg ∧
    (∀ j, j < msg.length % 64 → s.buf.read j = msg[64 * (msg.length / 64) + j]?) ∧
    (padded msg).length % 64 = 0 ∧
    ∃ t, exec .final s = .next t ∧ t.phase = .done ∧
      t.chain = chainBlocks ((padded msg).length / 64) iv (padded msg) ∧ digestBytes t.chain = md5 msg ∧
      t.digestValid = true ∧ t.digest = digestWires t.chain ∧
      (s.cmd = [] → s.resetIn = false → hostDigest t = (digestWires t.chain, t))

/-- R137. The state after FINAL for a message of n bytes, p = n mod 64: OFF, CNT, PHASE, the registers, BUF and the number of
compressions FINAL ran. (Compressions are counted by the model's own event history, log entry 8.) -/
def Obligations.StateAfterFinal : Prop :=
  ∀ (msg : List Byte) (s : State), Holds msg s →
    ∃ t, exec .final s = .next t ∧ t.off.val = 0 ∧
      t.cnt = s.cnt + BitVec.ofNat 64 (1 + zeroCount (msg.length % 64) + 8) ∧
      (msg.length + 128 < 2 ^ 64 → t.cnt.toNat = 64 * (msg.length / 64 + if msg.length % 64 ≤ 55 then 1 else 2)) ∧
      t.phase = .done ∧ t.chain = md5Chain msg ∧
      (∀ j, j < 64 → t.buf.read j = (padded msg)[(padded msg).length - 64 + j]?) ∧
      t.comps = s.comps + if msg.length % 64 ≤ 55 then 1 else 2

/-- R142. FINAL runs one compression for lengths mod 64 in 0..55 and two for 56..63, never zero and never three; the total for an
n-byte message is floor((n + 8) / 64) + 1. (Compressions are counted by the model's own event history, log entry 8.) -/
def Obligations.OneOrTwoCompressions : Prop :=
  ∀ (msg : List Byte) (s : State), Holds msg s →
    ∃ t, exec .final s = .next t ∧
      (56 ≤ msg.length % 64 → t.comps = s.comps + 2) ∧ (msg.length % 64 ≤ 55 → t.comps = s.comps + 1) ∧
      t.comps = (msg.length + 8) / 64 + 1

/-- R141. After a message that is a positive multiple of 64 bytes, FINAL runs exactly one compression, on a block of padding only;
for 64 bytes its length field is 00 02 00 00 00 00 00 00 and there are two compressions in all. (Compressions are counted by the
model's own event history, log entry 8.) -/
def Obligations.OneExtraBlockAfterFullBlocks : Prop :=
  ∀ (msg : List Byte) (s : State), Holds msg s → 0 < msg.length → msg.length % 64 = 0 →
    ∃ t, exec .final s = .next t ∧ t.comps = s.comps + 1 ∧
      t.chain = compressBlock s.chain
        (0x80 :: List.replicate 55 0x00 ++ leBytes 8 (BitVec.ofNat 64 (8 * msg.length))) ∧
      (msg.length = 64 → t.comps = 2 ∧
        leBytes 8 (BitVec.ofNat 64 (8 * msg.length)) = [0x00, 0x02, 0x00, 0x00, 0x00, 0x00, 0x00, 0x00])

/-- R139. Chunk-size independence: any two sequences of FEED and FILL after an INIT whose bytes concatenate to the same message
leave the same (A,B,C,D), CNT, OFF and pending bytes, and FINAL then gives the same digest, the MD5 digest of the message. -/
def Obligations.ChunkSizeIndependence : Prop :=
  ∀ (msg : List Byte) (s s' : State), FedSinceInit msg s → FedSinceInit msg s' →
    s'.chain = s.chain ∧ s'.cnt = s.cnt ∧ s'.off = s.off ∧
    (∀ j, j < s.off.val → s'.buf.read j = s.buf.read j) ∧
    ∃ t t', exec .final s = .next t ∧ exec .final s' = .next t' ∧ t'.digest = t.digest ∧
      digestBytes t.chain = md5 msg

/-- R76, R138. COMPUTE: the commands INIT, FEED(s) and FINAL that the host issues for any data, taken by as many steps, leave the
core with the MD5 digest of the data, every word and every payload byte taken, and the fault record untouched. (That one step is
one command is log entry 6, that CMD is a list of words log entry 9.) -/
def Obligations.ComputeGivesTheDigest : Prop :=
  ∀ (data : List Byte) (s : State), Ready s → s.cmd = [] → s.din = [] →
    ∃ t, core.run (computeSeq data).length (hostIssueAll (computeSeq data) s) = .next t ∧
      t.phase = .done ∧ digestBytes t.chain = md5 data ∧ t.cmd = [] ∧ t.din = [] ∧
      t.err = s.err ∧ t.errcode = s.errcode

/-- R76. FEEDL carries the data in order in ceil(n / 65535) FEEDs of at most 65535 bytes each, whose LEN is their payload's
length; the COUNTs of FILLL sum to the count. -/
def Obligations.LongTransfersAreCut : Prop :=
  (∀ data : List Byte,
    ((feedl data).map Prod.snd).flatten = data ∧
    (feedl data).length = (data.length + 65534) / 65535 ∧
    ∀ c ∈ feedl data, ∃ len : BitVec 16, c.1 = .feed len ∧ c.2.length = len.toNat) ∧
  (∀ (value : Byte) (count : Nat),
    ∃ counts : List (BitVec 16), filll value count = counts.map (fun n => (.fill value n, [])) ∧
      (counts.map BitVec.toNat).sum = count)

/-! ## Phases, faults and reset -/

/-- R153. Which command is legal in which phase, and the fault raised instead: INIT in every phase; FEED, FILL and FINAL in ACTIVE
only; NOT_INITIALISED in IDLE and FAULTED; FEED_AFTER_FINAL and FINAL_AFTER_FINAL in DONE. A FEED that faults first discards its
payload (R114). (That each fault is a next state is the model's reading, log entry 5; that CMD is a list of words is log entry 9.)
-/
def Obligations.LegalityByPhase : Prop :=
  ∀ s : State,
    (∃ t, exec .init s = .next t ∧ t.phase = .active) ∧
    (s.phase = .active →
      (∀ len : BitVec 16, ∃ t, exec (.feed len) s = .next t ∧ t.phase = .active ∧ t.err = s.err) ∧
      (∀ (v : Byte) (n : BitVec 16), ∃ t, exec (.fill v n) s = .next t ∧ t.phase = .active ∧ t.err = s.err) ∧
      ∃ t, exec .final s = .next t ∧ t.phase = .done ∧ t.err = s.err) ∧
    (s.phase = .idle ∨ s.phase = .faulted →
      (∀ len : BitVec 16, len.toNat ≤ s.din.length →
        exec (.feed len) s = .next (raiseFault .notInitialised { s with din := s.din.drop len.toNat })) ∧
      (∀ (v : Byte) (n : BitVec 16), exec (.fill v n) s = .next (raiseFault .notInitialised s)) ∧
      exec .final s = .next (raiseFault .notInitialised s)) ∧
    (s.phase = .done →
      (∀ len : BitVec 16, len.toNat ≤ s.din.length →
        exec (.feed len) s = .next (raiseFault .feedAfterFinal { s with din := s.din.drop len.toNat })) ∧
      (∀ (v : Byte) (n : BitVec 16), exec (.fill v n) s = .next (raiseFault .feedAfterFinal s)) ∧
      exec .final s = .next (raiseFault .finalAfterFinal s)) ∧
    (∀ (w : Word) (rest : List Word) (why : Reject), Ready s → s.cmd = w :: rest → decodeCmd w = .error why →
      step s = .next (raiseFault .illegalCmd { s with cmd := rest }))

/-- R154, R158. What a fault records: ERRCODE takes the code only if ERR was 0, ERR is 1, PHASE is FAULTED, DV is 0 and the
command ends; BUF has no value anywhere, and only A, B, C, D, CNT, OFF and BUF lose theirs. (That the fault is a next state is log
entry 5, that BUF then has no value log entry 4.) -/
def Obligations.FaultEntry : Prop :=
  ∀ (code : ErrCode) (s t : State), raiseFault code s = t →
    (s.err = false → t.errcode = code) ∧ (s.err = true → t.errcode = s.errcode) ∧ t.err = true ∧ t.phase = .faulted ∧
    t.digestValid = false ∧ t.transfer = none ∧ (∀ addr, t.buf.read addr = none) ∧
    t.work = s.work ∧ t.i = s.i ∧ t.compressing = s.compressing ∧ t.resetIn = s.resetIn ∧ t.cmd = s.cmd ∧ t.din = s.din

/-- R28, R157, R158. The fault record is sticky: once ERR is 1, no step but a RESET changes ERR or ERRCODE. (That the fault is a
next state is log entry 5.) -/
def Obligations.FaultRecordIsSticky : Prop :=
  ∀ s t : State, step s = .next t → s.err = true → s.resetIn = false → t.err = true ∧ t.errcode = s.errcode

/-- R150, R151, R153. The only faults are misuse: a step that raises a fault took an illegal word, or a command outside phase
ACTIVE; no data value and no length does. (Premise: the invariant of R35, which InvKeptByEveryStep says every step keeps.) (That
the fault is a next state is log entry 5.) -/
def Obligations.OnlyMisuseFaults : Prop :=
  ∀ s t : State, Inv s → step s = .next t → s.err = false → t.err = true →
    (t.errcode = .illegalCmd ∧ ∃ why, fetch s = .illegal why) ∨
    (t.errcode ≠ .illegalCmd ∧ t.errcode ≠ .none ∧ s.phase ≠ .active)

/-- R27, R144. How each phase is entered: IDLE by RESET, ACTIVE by INIT, DONE by FINAL from ACTIVE, FAULTED with ERR = 1. (That
the fault is a next state is log entry 5.) -/
def Obligations.PhasesAreEntered : Prop :=
  ∀ s t : State, step s = .next t → t.phase ≠ s.phase →
    (t.phase = .idle → s.resetIn = true) ∧
    (t.phase = .active → fetch s = .command .init) ∧
    (t.phase = .done → fetch s = .command .final ∧ s.phase = .active) ∧
    (t.phase = .faulted → t.err = true)

/-- R21. (A,B,C,D) are changed only by INIT, by a compression, or by a fault (which leaves them without a value): no instruction
that does none of these changes them. (That the fault is a next state is log entry 5; a compression shows in the model's own
count, log entry 8.) -/
def Obligations.ChainChangesOnlyByInitCompressOrFault : Prop :=
  ∀ (i : Instr) (s t : State), exec i s = .next t →
    t.chain = s.chain ∨ i = .init ∨ t.comps ≠ s.comps ∨
      ∃ code, t = raiseFault code { s with din := t.din }

/-- R30, R145. The digest is immutable in phase DONE: a step that leaves the core in DONE leaves DIGEST as it was, and so do the
host's reads. (That a word waiting on CMD does not count as a command in progress is log entry 16, that an unserved RESET does
not log entry 18.) -/
def Obligations.DigestIsImmutable : Prop :=
  ∀ s : State, s.phase = .done → s.compressing = false → s.transfer = none →
    (∀ t, step s = .next t → t.phase = .done → t.digest = s.digest) ∧
    hostDigest s = (s.digest, s) ∧ hostStatus s = (s.status, s)

/-- R180, R188. RESET, at any moment: PHASE IDLE, ERR 0, ERRCODE 0, the command in progress abandoned, DIN emptied; the words
the host has not had started are not touched. (That the words not yet started stay is the model's choice, log entry 9; that
RESET acts with the step after its assertion, on all bytes then on DIN, is log entry 18.) -/
def Obligations.ResetAtAnyMoment : Prop :=
  ∀ s : State, s.resetIn = true → ∃ t, step s = .next t ∧
    t.phase = .idle ∧ t.err = false ∧ t.errcode = .none ∧ t.transfer = none ∧ t.compressing = false ∧ t.din = [] ∧
    t.status = 0x00 ∧ t.cmd = s.cmd ∧ t.resetIn = false

/-- R36. What the spec says the state after RESET is: PHASE, ERR, ERRCODE, STATUS and DIN, no command in progress, DV = 0. -/
def Obligations.ResetState : Prop :=
  State.reset.phase = .idle ∧ State.reset.err = false ∧ State.reset.errcode = .none ∧ State.reset.status = 0x00 ∧
    State.reset.din = [] ∧ State.reset.busy = false ∧ State.reset.digestValid = false

/-- R29. The layout of STATUS: PHASE by its four values, ERR, DV exactly in phase DONE, ERRCODE by its five values and 0 while ERR
= 0 (in every state that meets the invariant), bit 7 zero; between commands, none being issued and no RESET asserted, the host
reads it as register 0, with no side effect. -/
def Obligations.StatusLayout : Prop :=
  ∀ s : State,
    ((s.phase = .idle → s.status.extractLsb' 0 2 = 0) ∧ (s.phase = .active → s.status.extractLsb' 0 2 = 1) ∧
      (s.phase = .done → s.status.extractLsb' 0 2 = 2) ∧ (s.phase = .faulted → s.status.extractLsb' 0 2 = 3)) ∧
    s.status.getLsbD 2 = s.err ∧ (s.status.getLsbD 3 = true ↔ s.phase = .done) ∧
    ((s.errcode = .none → s.status.extractLsb' 4 3 = 0) ∧ (s.errcode = .illegalCmd → s.status.extractLsb' 4 3 = 1) ∧
      (s.errcode = .notInitialised → s.status.extractLsb' 4 3 = 2) ∧
      (s.errcode = .feedAfterFinal → s.status.extractLsb' 4 3 = 3) ∧
      (s.errcode = .finalAfterFinal → s.status.extractLsb' 4 3 = 4)) ∧
    s.status.getLsbD 7 = false ∧ (Inv s → s.err = false → s.status.extractLsb' 4 3 = 0) ∧
    s.status.extractLsb' 0 2 = s.phase.bits ∧ s.status.extractLsb' 4 3 = s.errcode.bits ∧
    (s.busy = false → s.cmd = [] → s.resetIn = false → hostStatus s = (s.status, s) ∧
      ∃ w, hostRead 0 s = .ok (w, s) ∧ w.extractLsb' 0 8 = s.status)

/-- R50, R73. The numbered registers: 0 is STATUS, 1 to 4 are A, B, C, D of a valid digest, and no other exists. (The refusal of
another number is log entry 12, that the bits above STATUS are zeros log entry 17, that a waiting word is no command in progress
16, that an unserved RESET changes no read 18.) -/
def Obligations.HostRegisters : Prop :=
  ∀ s : State,
    (s.busy = false → hostRead 0 s = .ok (s.status.setWidth 32, s)) ∧
    (s.busy = false → s.phase = .done →
      hostRead 1 s = .ok (s.A, s) ∧ hostRead 2 s = .ok (s.B, s) ∧
      hostRead 3 s = .ok (s.C, s) ∧ hostRead 4 s = .ok (s.D, s)) ∧
    (∀ number, 5 ≤ number → hostRead number s = .error (.noSuchRegister number))

/-! ## Whole-machine properties -/

/-- R61, R184. A step runs the decoded command: with the core ready and a legal word first on CMD, the step is exec of the
instruction it decodes to, the word being consumed. (That one step is one command is log entry 6, that CMD is a list of words log
entry 9.) -/
def Obligations.StepRunsTheCommand : Prop :=
  ∀ (s : State) (w : Word) (rest : List Word) (i : Instr),
    Ready s → s.cmd = w :: rest → decode (.cmd w) = .ok i → step s = exec i { s with cmd := rest }

/-- R26, R69, R100. Inside a compression a step runs the micro-operation that the step index decodes to; after the step with index
63 the compression is closed. (That a step can be taken inside a compression is the model's own arrangement, log entry 7.) -/
def Obligations.StepRunsTheMicroOperation : Prop :=
  ∀ s : State, s.resetIn = false → s.compressing = true →
    ∃ t, exec (decodeStep s.i) s = .next t ∧ step s = .next (if s.i = 63 then t.endCompress else t)

/-- R35. The invariant holds after reset. (It rests on the reset values of log entry 1 only in that BUF lists nothing.) -/
def Obligations.InvAtReset : Prop := Inv State.reset

/-- R35, R119. Every step keeps the invariant of command boundaries: BUF canonical, the fault record consistent, OFF at most 63 in
an open message and 0 after FINAL, and CNT equal, mod 2^64, to 64 bytes per compression plus the pending and the owed bytes. (The
count of compressions is log entry 8, the held FEED log entry 6.) -/
def Obligations.InvKeptByEveryStep : Prop :=
  ∀ s t : State, Inv s → step s = .next t → Inv t

/-- R24, R33. Stale bytes of BUF are never read: states that differ only in BUF[OFF .. 63] stay so under every host command.
(Bytes without a value are log entry 4.) (That the free values of equal draws agree is log entry 15.) -/
def Obligations.StaleBytesAreNeverRead : Prop :=
  ∀ (i : Instr) (s s' t : State), i ∈ [Instr.init, .final] ∨ (∃ len, i = .feed len) ∨ (∃ v n, i = .fill v n) →
    s.off.val ≤ 63 → SameButStale s s' → exec i s = .next t → ∃ t', exec i s' = .next t' ∧ SameButStale t t'

/-- R165. Instances share nothing: a step of one instance is its own step, and no other instance changes. (The product as a list
of states is log entry 13.) -/
def Obligations.InstancesAreIndependent : Prop :=
  ∀ (cores cores' : List State) (k : Nat), stepInstance k cores = .next cores' →
    cores'.length = cores.length ∧ (∀ j, j ≠ k → cores'[j]? = cores[j]?) ∧
    ∀ s, cores[k]? = some s → ∃ t, step s = .next t ∧ cores'[k]? = some t
end

