-- ==== Sys2Proof/Laws/State.lean ====
section
/-! SUPPORT. One lemma per field per update of State, each true by rfl: later proofs never unfold a record update. -/

namespace Sys2Proof.Machine

variable (s : State)

/-! The two quadruples, read and written. -/

@[simp] theorem State.chain_setChain (q : Quad) : (s.setChain q).chain = q := rfl
@[simp] theorem State.work_setChain (q : Quad) : (s.setChain q).work = s.work := rfl
@[simp] theorem State.work_setWork (q : Quad) : (s.setWork q).work = q := rfl
@[simp] theorem State.chain_setWork (q : Quad) : (s.setWork q).chain = s.chain := rfl
@[simp] theorem State.chain_beginCompress : s.beginCompress.chain = s.chain := rfl
@[simp] theorem State.work_beginCompress : s.beginCompress.work = s.chain := rfl
@[simp] theorem State.chain_drawWork : s.drawWork.chain = s.chain := rfl
@[simp] theorem State.work_drawData : s.drawData.work = s.work := rfl

/-! Fields after `setChain`. -/

@[simp] theorem State.A_setChain (q : Quad) : (s.setChain q).A = q.a := rfl
@[simp] theorem State.B_setChain (q : Quad) : (s.setChain q).B = q.b := rfl
@[simp] theorem State.C_setChain (q : Quad) : (s.setChain q).C = q.c := rfl
@[simp] theorem State.D_setChain (q : Quad) : (s.setChain q).D = q.d := rfl
@[simp] theorem State.a_setChain (q : Quad) : (s.setChain q).a = s.a := rfl
@[simp] theorem State.b_setChain (q : Quad) : (s.setChain q).b = s.b := rfl
@[simp] theorem State.c_setChain (q : Quad) : (s.setChain q).c = s.c := rfl
@[simp] theorem State.d_setChain (q : Quad) : (s.setChain q).d = s.d := rfl
@[simp] theorem State.cnt_setChain (q : Quad) : (s.setChain q).cnt = s.cnt := rfl
@[simp] theorem State.off_setChain (q : Quad) : (s.setChain q).off = s.off := rfl
@[simp] theorem State.buf_setChain (q : Quad) : (s.setChain q).buf = s.buf := rfl
@[simp] theorem State.i_setChain (q : Quad) : (s.setChain q).i = s.i := rfl
@[simp] theorem State.compressing_setChain (q : Quad) : (s.setChain q).compressing = s.compressing := rfl
@[simp] theorem State.phase_setChain (q : Quad) : (s.setChain q).phase = s.phase := rfl
@[simp] theorem State.err_setChain (q : Quad) : (s.setChain q).err = s.err := rfl
@[simp] theorem State.errcode_setChain (q : Quad) : (s.setChain q).errcode = s.errcode := rfl
@[simp] theorem State.transfer_setChain (q : Quad) : (s.setChain q).transfer = s.transfer := rfl
@[simp] theorem State.resetIn_setChain (q : Quad) : (s.setChain q).resetIn = s.resetIn := rfl
@[simp] theorem State.cmd_setChain (q : Quad) : (s.setChain q).cmd = s.cmd := rfl
@[simp] theorem State.din_setChain (q : Quad) : (s.setChain q).din = s.din := rfl
@[simp] theorem State.comps_setChain (q : Quad) : (s.setChain q).comps = s.comps := rfl
@[simp] theorem State.draws_setChain (q : Quad) : (s.setChain q).draws = s.draws := rfl

/-! Fields after `setWork`. -/

@[simp] theorem State.A_setWork (q : Quad) : (s.setWork q).A = s.A := rfl
@[simp] theorem State.B_setWork (q : Quad) : (s.setWork q).B = s.B := rfl
@[simp] theorem State.C_setWork (q : Quad) : (s.setWork q).C = s.C := rfl
@[simp] theorem State.D_setWork (q : Quad) : (s.setWork q).D = s.D := rfl
@[simp] theorem State.a_setWork (q : Quad) : (s.setWork q).a = q.a := rfl
@[simp] theorem State.b_setWork (q : Quad) : (s.setWork q).b = q.b := rfl
@[simp] theorem State.c_setWork (q : Quad) : (s.setWork q).c = q.c := rfl
@[simp] theorem State.d_setWork (q : Quad) : (s.setWork q).d = q.d := rfl
@[simp] theorem State.cnt_setWork (q : Quad) : (s.setWork q).cnt = s.cnt := rfl
@[simp] theorem State.off_setWork (q : Quad) : (s.setWork q).off = s.off := rfl
@[simp] theorem State.buf_setWork (q : Quad) : (s.setWork q).buf = s.buf := rfl
@[simp] theorem State.i_setWork (q : Quad) : (s.setWork q).i = s.i := rfl
@[simp] theorem State.compressing_setWork (q : Quad) : (s.setWork q).compressing = s.compressing := rfl
@[simp] theorem State.phase_setWork (q : Quad) : (s.setWork q).phase = s.phase := rfl
@[simp] theorem State.err_setWork (q : Quad) : (s.setWork q).err = s.err := rfl
@[simp] theorem State.errcode_setWork (q : Quad) : (s.setWork q).errcode = s.errcode := rfl
@[simp] theorem State.transfer_setWork (q : Quad) : (s.setWork q).transfer = s.transfer := rfl
@[simp] theorem State.resetIn_setWork (q : Quad) : (s.setWork q).resetIn = s.resetIn := rfl
@[simp] theorem State.cmd_setWork (q : Quad) : (s.setWork q).cmd = s.cmd := rfl
@[simp] theorem State.din_setWork (q : Quad) : (s.setWork q).din = s.din := rfl
@[simp] theorem State.comps_setWork (q : Quad) : (s.setWork q).comps = s.comps := rfl
@[simp] theorem State.draws_setWork (q : Quad) : (s.setWork q).draws = s.draws := rfl

/-! Fields after `count`. -/

@[simp] theorem State.A_count (n : BitVec 16) : (s.count n).A = s.A := rfl
@[simp] theorem State.B_count (n : BitVec 16) : (s.count n).B = s.B := rfl
@[simp] theorem State.C_count (n : BitVec 16) : (s.count n).C = s.C := rfl
@[simp] theorem State.D_count (n : BitVec 16) : (s.count n).D = s.D := rfl
@[simp] theorem State.a_count (n : BitVec 16) : (s.count n).a = s.a := rfl
@[simp] theorem State.b_count (n : BitVec 16) : (s.count n).b = s.b := rfl
@[simp] theorem State.c_count (n : BitVec 16) : (s.count n).c = s.c := rfl
@[simp] theorem State.d_count (n : BitVec 16) : (s.count n).d = s.d := rfl
@[simp] theorem State.cnt_count (n : BitVec 16) : (s.count n).cnt = s.cnt + n.setWidth 64 := rfl
@[simp] theorem State.off_count (n : BitVec 16) : (s.count n).off = s.off := rfl
@[simp] theorem State.buf_count (n : BitVec 16) : (s.count n).buf = s.buf := rfl
@[simp] theorem State.i_count (n : BitVec 16) : (s.count n).i = s.i := rfl
@[simp] theorem State.compressing_count (n : BitVec 16) : (s.count n).compressing = s.compressing := rfl
@[simp] theorem State.phase_count (n : BitVec 16) : (s.count n).phase = s.phase := rfl
@[simp] theorem State.err_count (n : BitVec 16) : (s.count n).err = s.err := rfl
@[simp] theorem State.errcode_count (n : BitVec 16) : (s.count n).errcode = s.errcode := rfl
@[simp] theorem State.transfer_count (n : BitVec 16) : (s.count n).transfer = s.transfer := rfl
@[simp] theorem State.resetIn_count (n : BitVec 16) : (s.count n).resetIn = s.resetIn := rfl
@[simp] theorem State.cmd_count (n : BitVec 16) : (s.count n).cmd = s.cmd := rfl
@[simp] theorem State.din_count (n : BitVec 16) : (s.count n).din = s.din := rfl
@[simp] theorem State.comps_count (n : BitVec 16) : (s.count n).comps = s.comps := rfl
@[simp] theorem State.draws_count (n : BitVec 16) : (s.count n).draws = s.draws := rfl

/-! Fields after `drawData`. -/

@[simp] theorem State.A_drawData : (s.drawData).A = Config.freeWord .chainA s.draws := rfl
@[simp] theorem State.B_drawData : (s.drawData).B = Config.freeWord .chainB s.draws := rfl
@[simp] theorem State.C_drawData : (s.drawData).C = Config.freeWord .chainC s.draws := rfl
@[simp] theorem State.D_drawData : (s.drawData).D = Config.freeWord .chainD s.draws := rfl
@[simp] theorem State.a_drawData : (s.drawData).a = s.a := rfl
@[simp] theorem State.b_drawData : (s.drawData).b = s.b := rfl
@[simp] theorem State.c_drawData : (s.drawData).c = s.c := rfl
@[simp] theorem State.d_drawData : (s.drawData).d = s.d := rfl
@[simp] theorem State.cnt_drawData : (s.drawData).cnt = Config.freeCount s.draws := rfl
@[simp] theorem State.off_drawData : (s.drawData).off = Config.freeOffset s.draws := rfl
@[simp] theorem State.buf_drawData : (s.drawData).buf = [] := rfl
@[simp] theorem State.i_drawData : (s.drawData).i = s.i := rfl
@[simp] theorem State.compressing_drawData : (s.drawData).compressing = s.compressing := rfl
@[simp] theorem State.phase_drawData : (s.drawData).phase = s.phase := rfl
@[simp] theorem State.err_drawData : (s.drawData).err = s.err := rfl
@[simp] theorem State.errcode_drawData : (s.drawData).errcode = s.errcode := rfl
@[simp] theorem State.transfer_drawData : (s.drawData).transfer = s.transfer := rfl
@[simp] theorem State.resetIn_drawData : (s.drawData).resetIn = s.resetIn := rfl
@[simp] theorem State.cmd_drawData : (s.drawData).cmd = s.cmd := rfl
@[simp] theorem State.din_drawData : (s.drawData).din = s.din := rfl
@[simp] theorem State.comps_drawData : (s.drawData).comps = s.comps := rfl
@[simp] theorem State.draws_drawData : (s.drawData).draws = s.draws + 1 := rfl

/-! Fields after `drawWork`. -/

@[simp] theorem State.A_drawWork : (s.drawWork).A = s.A := rfl
@[simp] theorem State.B_drawWork : (s.drawWork).B = s.B := rfl
@[simp] theorem State.C_drawWork : (s.drawWork).C = s.C := rfl
@[simp] theorem State.D_drawWork : (s.drawWork).D = s.D := rfl
@[simp] theorem State.a_drawWork : (s.drawWork).a = Config.freeWord .workA s.draws := rfl
@[simp] theorem State.b_drawWork : (s.drawWork).b = Config.freeWord .workB s.draws := rfl
@[simp] theorem State.c_drawWork : (s.drawWork).c = Config.freeWord .workC s.draws := rfl
@[simp] theorem State.d_drawWork : (s.drawWork).d = Config.freeWord .workD s.draws := rfl
@[simp] theorem State.cnt_drawWork : (s.drawWork).cnt = s.cnt := rfl
@[simp] theorem State.off_drawWork : (s.drawWork).off = s.off := rfl
@[simp] theorem State.buf_drawWork : (s.drawWork).buf = s.buf := rfl
@[simp] theorem State.i_drawWork : (s.drawWork).i = Config.freeStep s.draws := rfl
@[simp] theorem State.compressing_drawWork : (s.drawWork).compressing = s.compressing := rfl
@[simp] theorem State.phase_drawWork : (s.drawWork).phase = s.phase := rfl
@[simp] theorem State.err_drawWork : (s.drawWork).err = s.err := rfl
@[simp] theorem State.errcode_drawWork : (s.drawWork).errcode = s.errcode := rfl
@[simp] theorem State.transfer_drawWork : (s.drawWork).transfer = s.transfer := rfl
@[simp] theorem State.resetIn_drawWork : (s.drawWork).resetIn = s.resetIn := rfl
@[simp] theorem State.cmd_drawWork : (s.drawWork).cmd = s.cmd := rfl
@[simp] theorem State.din_drawWork : (s.drawWork).din = s.din := rfl
@[simp] theorem State.comps_drawWork : (s.drawWork).comps = s.comps := rfl
@[simp] theorem State.draws_drawWork : (s.drawWork).draws = s.draws + 1 := rfl

/-! Fields after `recordFault`. -/

@[simp] theorem State.A_recordFault (code : ErrCode) : (s.recordFault code).A = s.A := rfl
@[simp] theorem State.B_recordFault (code : ErrCode) : (s.recordFault code).B = s.B := rfl
@[simp] theorem State.C_recordFault (code : ErrCode) : (s.recordFault code).C = s.C := rfl
@[simp] theorem State.D_recordFault (code : ErrCode) : (s.recordFault code).D = s.D := rfl
@[simp] theorem State.a_recordFault (code : ErrCode) : (s.recordFault code).a = s.a := rfl
@[simp] theorem State.b_recordFault (code : ErrCode) : (s.recordFault code).b = s.b := rfl
@[simp] theorem State.c_recordFault (code : ErrCode) : (s.recordFault code).c = s.c := rfl
@[simp] theorem State.d_recordFault (code : ErrCode) : (s.recordFault code).d = s.d := rfl
@[simp] theorem State.cnt_recordFault (code : ErrCode) : (s.recordFault code).cnt = s.cnt := rfl
@[simp] theorem State.off_recordFault (code : ErrCode) : (s.recordFault code).off = s.off := rfl
@[simp] theorem State.buf_recordFault (code : ErrCode) : (s.recordFault code).buf = s.buf := rfl
@[simp] theorem State.i_recordFault (code : ErrCode) : (s.recordFault code).i = s.i := rfl
@[simp] theorem State.compressing_recordFault (code : ErrCode) : (s.recordFault code).compressing = s.compressing := rfl
@[simp] theorem State.phase_recordFault (code : ErrCode) : (s.recordFault code).phase = .faulted := rfl
@[simp] theorem State.err_recordFault (code : ErrCode) : (s.recordFault code).err = true := rfl
@[simp] theorem State.errcode_recordFault (code : ErrCode) : (s.recordFault code).errcode = if s.err then s.errcode else code := rfl
@[simp] theorem State.transfer_recordFault (code : ErrCode) : (s.recordFault code).transfer = none := rfl
@[simp] theorem State.resetIn_recordFault (code : ErrCode) : (s.recordFault code).resetIn = s.resetIn := rfl
@[simp] theorem State.cmd_recordFault (code : ErrCode) : (s.recordFault code).cmd = s.cmd := rfl
@[simp] theorem State.din_recordFault (code : ErrCode) : (s.recordFault code).din = s.din := rfl
@[simp] theorem State.comps_recordFault (code : ErrCode) : (s.recordFault code).comps = s.comps := rfl
@[simp] theorem State.draws_recordFault (code : ErrCode) : (s.recordFault code).draws = s.draws := rfl

/-! Fields after `resetControl`. -/

@[simp] theorem State.A_resetControl : (s.resetControl).A = s.A := rfl
@[simp] theorem State.B_resetControl : (s.resetControl).B = s.B := rfl
@[simp] theorem State.C_resetControl : (s.resetControl).C = s.C := rfl
@[simp] theorem State.D_resetControl : (s.resetControl).D = s.D := rfl
@[simp] theorem State.a_resetControl : (s.resetControl).a = s.a := rfl
@[simp] theorem State.b_resetControl : (s.resetControl).b = s.b := rfl
@[simp] theorem State.c_resetControl : (s.resetControl).c = s.c := rfl
@[simp] theorem State.d_resetControl : (s.resetControl).d = s.d := rfl
@[simp] theorem State.cnt_resetControl : (s.resetControl).cnt = s.cnt := rfl
@[simp] theorem State.off_resetControl : (s.resetControl).off = s.off := rfl
@[simp] theorem State.buf_resetControl : (s.resetControl).buf = s.buf := rfl
@[simp] theorem State.i_resetControl : (s.resetControl).i = s.i := rfl
@[simp] theorem State.compressing_resetControl : (s.resetControl).compressing = false := rfl
@[simp] theorem State.phase_resetControl : (s.resetControl).phase = .idle := rfl
@[simp] theorem State.err_resetControl : (s.resetControl).err = false := rfl
@[simp] theorem State.errcode_resetControl : (s.resetControl).errcode = .none := rfl
@[simp] theorem State.transfer_resetControl : (s.resetControl).transfer = none := rfl
@[simp] theorem State.resetIn_resetControl : (s.resetControl).resetIn = false := rfl
@[simp] theorem State.cmd_resetControl : (s.resetControl).cmd = s.cmd := rfl
@[simp] theorem State.din_resetControl : (s.resetControl).din = [] := rfl
@[simp] theorem State.comps_resetControl : (s.resetControl).comps = 0 := rfl
@[simp] theorem State.draws_resetControl : (s.resetControl).draws = s.draws := rfl

/-! Fields after `beginCompress`. -/

@[simp] theorem State.A_beginCompress : (s.beginCompress).A = s.A := rfl
@[simp] theorem State.B_beginCompress : (s.beginCompress).B = s.B := rfl
@[simp] theorem State.C_beginCompress : (s.beginCompress).C = s.C := rfl
@[simp] theorem State.D_beginCompress : (s.beginCompress).D = s.D := rfl
@[simp] theorem State.a_beginCompress : (s.beginCompress).a = s.A := rfl
@[simp] theorem State.b_beginCompress : (s.beginCompress).b = s.B := rfl
@[simp] theorem State.c_beginCompress : (s.beginCompress).c = s.C := rfl
@[simp] theorem State.d_beginCompress : (s.beginCompress).d = s.D := rfl
@[simp] theorem State.cnt_beginCompress : (s.beginCompress).cnt = s.cnt := rfl
@[simp] theorem State.off_beginCompress : (s.beginCompress).off = s.off := rfl
@[simp] theorem State.buf_beginCompress : (s.beginCompress).buf = s.buf := rfl
@[simp] theorem State.i_beginCompress : (s.beginCompress).i = 0 := rfl
@[simp] theorem State.compressing_beginCompress : (s.beginCompress).compressing = true := rfl
@[simp] theorem State.phase_beginCompress : (s.beginCompress).phase = s.phase := rfl
@[simp] theorem State.err_beginCompress : (s.beginCompress).err = s.err := rfl
@[simp] theorem State.errcode_beginCompress : (s.beginCompress).errcode = s.errcode := rfl
@[simp] theorem State.transfer_beginCompress : (s.beginCompress).transfer = s.transfer := rfl
@[simp] theorem State.resetIn_beginCompress : (s.beginCompress).resetIn = s.resetIn := rfl
@[simp] theorem State.cmd_beginCompress : (s.beginCompress).cmd = s.cmd := rfl
@[simp] theorem State.din_beginCompress : (s.beginCompress).din = s.din := rfl
@[simp] theorem State.comps_beginCompress : (s.beginCompress).comps = s.comps := rfl
@[simp] theorem State.draws_beginCompress : (s.beginCompress).draws = s.draws := rfl

/-! Fields after `nextDraw`. -/

@[simp] theorem State.A_nextDraw : (s.nextDraw).A = s.A := rfl
@[simp] theorem State.B_nextDraw : (s.nextDraw).B = s.B := rfl
@[simp] theorem State.C_nextDraw : (s.nextDraw).C = s.C := rfl
@[simp] theorem State.D_nextDraw : (s.nextDraw).D = s.D := rfl
@[simp] theorem State.a_nextDraw : (s.nextDraw).a = s.a := rfl
@[simp] theorem State.b_nextDraw : (s.nextDraw).b = s.b := rfl
@[simp] theorem State.c_nextDraw : (s.nextDraw).c = s.c := rfl
@[simp] theorem State.d_nextDraw : (s.nextDraw).d = s.d := rfl
@[simp] theorem State.cnt_nextDraw : (s.nextDraw).cnt = s.cnt := rfl
@[simp] theorem State.off_nextDraw : (s.nextDraw).off = s.off := rfl
@[simp] theorem State.buf_nextDraw : (s.nextDraw).buf = s.buf := rfl
@[simp] theorem State.i_nextDraw : (s.nextDraw).i = s.i := rfl
@[simp] theorem State.compressing_nextDraw : (s.nextDraw).compressing = s.compressing := rfl
@[simp] theorem State.phase_nextDraw : (s.nextDraw).phase = s.phase := rfl
@[simp] theorem State.err_nextDraw : (s.nextDraw).err = s.err := rfl
@[simp] theorem State.errcode_nextDraw : (s.nextDraw).errcode = s.errcode := rfl
@[simp] theorem State.transfer_nextDraw : (s.nextDraw).transfer = s.transfer := rfl
@[simp] theorem State.resetIn_nextDraw : (s.nextDraw).resetIn = s.resetIn := rfl
@[simp] theorem State.cmd_nextDraw : (s.nextDraw).cmd = s.cmd := rfl
@[simp] theorem State.din_nextDraw : (s.nextDraw).din = s.din := rfl
@[simp] theorem State.comps_nextDraw : (s.nextDraw).comps = s.comps := rfl
@[simp] theorem State.draws_nextDraw : (s.nextDraw).draws = s.draws + 1 := rfl

/-! Fields after `takeCommand`. -/

@[simp] theorem State.A_takeCommand : (takeCommand s).A = s.A := rfl
@[simp] theorem State.B_takeCommand : (takeCommand s).B = s.B := rfl
@[simp] theorem State.C_takeCommand : (takeCommand s).C = s.C := rfl
@[simp] theorem State.D_takeCommand : (takeCommand s).D = s.D := rfl
@[simp] theorem State.a_takeCommand : (takeCommand s).a = s.a := rfl
@[simp] theorem State.b_takeCommand : (takeCommand s).b = s.b := rfl
@[simp] theorem State.c_takeCommand : (takeCommand s).c = s.c := rfl
@[simp] theorem State.d_takeCommand : (takeCommand s).d = s.d := rfl
@[simp] theorem State.cnt_takeCommand : (takeCommand s).cnt = s.cnt := rfl
@[simp] theorem State.off_takeCommand : (takeCommand s).off = s.off := rfl
@[simp] theorem State.buf_takeCommand : (takeCommand s).buf = s.buf := rfl
@[simp] theorem State.i_takeCommand : (takeCommand s).i = s.i := rfl
@[simp] theorem State.compressing_takeCommand : (takeCommand s).compressing = s.compressing := rfl
@[simp] theorem State.phase_takeCommand : (takeCommand s).phase = s.phase := rfl
@[simp] theorem State.err_takeCommand : (takeCommand s).err = s.err := rfl
@[simp] theorem State.errcode_takeCommand : (takeCommand s).errcode = s.errcode := rfl
@[simp] theorem State.transfer_takeCommand : (takeCommand s).transfer = s.transfer := rfl
@[simp] theorem State.resetIn_takeCommand : (takeCommand s).resetIn = s.resetIn := rfl
@[simp] theorem State.cmd_takeCommand : (takeCommand s).cmd = s.cmd.tail := rfl
@[simp] theorem State.din_takeCommand : (takeCommand s).din = s.din := rfl
@[simp] theorem State.comps_takeCommand : (takeCommand s).comps = s.comps := rfl
@[simp] theorem State.draws_takeCommand : (takeCommand s).draws = s.draws := rfl

/-! Fields after `hostReset`. -/

@[simp] theorem State.A_hostReset : (hostReset s).A = s.A := rfl
@[simp] theorem State.B_hostReset : (hostReset s).B = s.B := rfl
@[simp] theorem State.C_hostReset : (hostReset s).C = s.C := rfl
@[simp] theorem State.D_hostReset : (hostReset s).D = s.D := rfl
@[simp] theorem State.a_hostReset : (hostReset s).a = s.a := rfl
@[simp] theorem State.b_hostReset : (hostReset s).b = s.b := rfl
@[simp] theorem State.c_hostReset : (hostReset s).c = s.c := rfl
@[simp] theorem State.d_hostReset : (hostReset s).d = s.d := rfl
@[simp] theorem State.cnt_hostReset : (hostReset s).cnt = s.cnt := rfl
@[simp] theorem State.off_hostReset : (hostReset s).off = s.off := rfl
@[simp] theorem State.buf_hostReset : (hostReset s).buf = s.buf := rfl
@[simp] theorem State.i_hostReset : (hostReset s).i = s.i := rfl
@[simp] theorem State.compressing_hostReset : (hostReset s).compressing = s.compressing := rfl
@[simp] theorem State.phase_hostReset : (hostReset s).phase = s.phase := rfl
@[simp] theorem State.err_hostReset : (hostReset s).err = s.err := rfl
@[simp] theorem State.errcode_hostReset : (hostReset s).errcode = s.errcode := rfl
@[simp] theorem State.transfer_hostReset : (hostReset s).transfer = s.transfer := rfl
@[simp] theorem State.resetIn_hostReset : (hostReset s).resetIn = true := rfl
@[simp] theorem State.cmd_hostReset : (hostReset s).cmd = s.cmd := rfl
@[simp] theorem State.din_hostReset : (hostReset s).din = s.din := rfl
@[simp] theorem State.comps_hostReset : (hostReset s).comps = s.comps := rfl
@[simp] theorem State.draws_hostReset : (hostReset s).draws = s.draws := rfl

/-! Fields after `hostData`. -/

@[simp] theorem State.A_hostData (bytes : List Byte) : (hostData bytes s).A = s.A := rfl
@[simp] theorem State.B_hostData (bytes : List Byte) : (hostData bytes s).B = s.B := rfl
@[simp] theorem State.C_hostData (bytes : List Byte) : (hostData bytes s).C = s.C := rfl
@[simp] theorem State.D_hostData (bytes : List Byte) : (hostData bytes s).D = s.D := rfl
@[simp] theorem State.a_hostData (bytes : List Byte) : (hostData bytes s).a = s.a := rfl
@[simp] theorem State.b_hostData (bytes : List Byte) : (hostData bytes s).b = s.b := rfl
@[simp] theorem State.c_hostData (bytes : List Byte) : (hostData bytes s).c = s.c := rfl
@[simp] theorem State.d_hostData (bytes : List Byte) : (hostData bytes s).d = s.d := rfl
@[simp] theorem State.cnt_hostData (bytes : List Byte) : (hostData bytes s).cnt = s.cnt := rfl
@[simp] theorem State.off_hostData (bytes : List Byte) : (hostData bytes s).off = s.off := rfl
@[simp] theorem State.buf_hostData (bytes : List Byte) : (hostData bytes s).buf = s.buf := rfl
@[simp] theorem State.i_hostData (bytes : List Byte) : (hostData bytes s).i = s.i := rfl
@[simp] theorem State.compressing_hostData (bytes : List Byte) : (hostData bytes s).compressing = s.compressing := rfl
@[simp] theorem State.phase_hostData (bytes : List Byte) : (hostData bytes s).phase = s.phase := rfl
@[simp] theorem State.err_hostData (bytes : List Byte) : (hostData bytes s).err = s.err := rfl
@[simp] theorem State.errcode_hostData (bytes : List Byte) : (hostData bytes s).errcode = s.errcode := rfl
@[simp] theorem State.transfer_hostData (bytes : List Byte) : (hostData bytes s).transfer = s.transfer := rfl
@[simp] theorem State.resetIn_hostData (bytes : List Byte) : (hostData bytes s).resetIn = s.resetIn := rfl
@[simp] theorem State.cmd_hostData (bytes : List Byte) : (hostData bytes s).cmd = s.cmd := rfl
@[simp] theorem State.din_hostData (bytes : List Byte) : (hostData bytes s).din = s.din ++ bytes := rfl
@[simp] theorem State.comps_hostData (bytes : List Byte) : (hostData bytes s).comps = s.comps := rfl
@[simp] theorem State.draws_hostData (bytes : List Byte) : (hostData bytes s).draws = s.draws := rfl

/-! Fields after `hostCommand`. -/

@[simp] theorem State.A_hostCommand (w : Word) : (hostCommand w s).A = s.A := rfl
@[simp] theorem State.B_hostCommand (w : Word) : (hostCommand w s).B = s.B := rfl
@[simp] theorem State.C_hostCommand (w : Word) : (hostCommand w s).C = s.C := rfl
@[simp] theorem State.D_hostCommand (w : Word) : (hostCommand w s).D = s.D := rfl
@[simp] theorem State.a_hostCommand (w : Word) : (hostCommand w s).a = s.a := rfl
@[simp] theorem State.b_hostCommand (w : Word) : (hostCommand w s).b = s.b := rfl
@[simp] theorem State.c_hostCommand (w : Word) : (hostCommand w s).c = s.c := rfl
@[simp] theorem State.d_hostCommand (w : Word) : (hostCommand w s).d = s.d := rfl
@[simp] theorem State.cnt_hostCommand (w : Word) : (hostCommand w s).cnt = s.cnt := rfl
@[simp] theorem State.off_hostCommand (w : Word) : (hostCommand w s).off = s.off := rfl
@[simp] theorem State.buf_hostCommand (w : Word) : (hostCommand w s).buf = s.buf := rfl
@[simp] theorem State.i_hostCommand (w : Word) : (hostCommand w s).i = s.i := rfl
@[simp] theorem State.compressing_hostCommand (w : Word) : (hostCommand w s).compressing = s.compressing := rfl
@[simp] theorem State.phase_hostCommand (w : Word) : (hostCommand w s).phase = s.phase := rfl
@[simp] theorem State.err_hostCommand (w : Word) : (hostCommand w s).err = s.err := rfl
@[simp] theorem State.errcode_hostCommand (w : Word) : (hostCommand w s).errcode = s.errcode := rfl
@[simp] theorem State.transfer_hostCommand (w : Word) : (hostCommand w s).transfer = s.transfer := rfl
@[simp] theorem State.resetIn_hostCommand (w : Word) : (hostCommand w s).resetIn = s.resetIn := rfl
@[simp] theorem State.cmd_hostCommand (w : Word) : (hostCommand w s).cmd = s.cmd ++ [w] := rfl
@[simp] theorem State.din_hostCommand (w : Word) : (hostCommand w s).din = s.din := rfl
@[simp] theorem State.comps_hostCommand (w : Word) : (hostCommand w s).comps = s.comps := rfl
@[simp] theorem State.draws_hostCommand (w : Word) : (hostCommand w s).draws = s.draws := rfl

/-! Fields after `closeCompress`. -/

@[simp] theorem State.draws_closeCompress (q : Quad) : (s.closeCompress q).draws = s.draws + 1 := rfl
@[simp] theorem State.comps_closeCompress (q : Quad) : (s.closeCompress q).comps = s.comps + 1 := rfl
@[simp] theorem State.A_closeCompress (q : Quad) : (s.closeCompress q).A = q.a := rfl
@[simp] theorem State.B_closeCompress (q : Quad) : (s.closeCompress q).B = q.b := rfl
@[simp] theorem State.C_closeCompress (q : Quad) : (s.closeCompress q).C = q.c := rfl
@[simp] theorem State.D_closeCompress (q : Quad) : (s.closeCompress q).D = q.d := rfl
@[simp] theorem State.a_closeCompress (q : Quad) : (s.closeCompress q).a = Config.freeWord .workA s.draws := rfl
@[simp] theorem State.b_closeCompress (q : Quad) : (s.closeCompress q).b = Config.freeWord .workB s.draws := rfl
@[simp] theorem State.c_closeCompress (q : Quad) : (s.closeCompress q).c = Config.freeWord .workC s.draws := rfl
@[simp] theorem State.d_closeCompress (q : Quad) : (s.closeCompress q).d = Config.freeWord .workD s.draws := rfl
@[simp] theorem State.cnt_closeCompress (q : Quad) : (s.closeCompress q).cnt = s.cnt := rfl
@[simp] theorem State.off_closeCompress (q : Quad) : (s.closeCompress q).off = 0 := rfl
@[simp] theorem State.buf_closeCompress (q : Quad) : (s.closeCompress q).buf = s.buf := rfl
@[simp] theorem State.i_closeCompress (q : Quad) : (s.closeCompress q).i = Config.freeStep s.draws := rfl
@[simp] theorem State.compressing_closeCompress (q : Quad) : (s.closeCompress q).compressing = false := rfl
@[simp] theorem State.phase_closeCompress (q : Quad) : (s.closeCompress q).phase = s.phase := rfl
@[simp] theorem State.err_closeCompress (q : Quad) : (s.closeCompress q).err = s.err := rfl
@[simp] theorem State.errcode_closeCompress (q : Quad) : (s.closeCompress q).errcode = s.errcode := rfl
@[simp] theorem State.transfer_closeCompress (q : Quad) : (s.closeCompress q).transfer = s.transfer := rfl
@[simp] theorem State.resetIn_closeCompress (q : Quad) : (s.closeCompress q).resetIn = s.resetIn := rfl
@[simp] theorem State.cmd_closeCompress (q : Quad) : (s.closeCompress q).cmd = s.cmd := rfl
@[simp] theorem State.din_closeCompress (q : Quad) : (s.closeCompress q).din = s.din := rfl
@[simp] theorem State.chain_closeCompress (q : Quad) : (s.closeCompress q).chain = q := rfl

end Sys2Proof.Machine
end

