-- ==== Sys2Proof/Laws/Compressor.lean ====
section
/-! SUPPORT. What a step and a compression can do, said once: `stepAt` is full equation by definition, `compress_eq` says that COMPRESS
is CF on (A,B,C,D) and the bytes of BUF. -/

namespace Sys2Proof.Machine

/-- K[i] is at most 15 (R83). -/
theorem tableK_lt (i : BitVec 6) : tableK i < 16 := by
  revert i; decide

/-- The word view of BUF is the word view of its 64 bytes (R44). -/
theorem State.messageWord_eq_blockWord (s : State) {k : Nat} (h : k < 16) :
    s.messageWord k = blockWord s.block k := by
  unfold State.messageWord blockWord State.block
  have e : ∀ j, j < 64 → ((List.range 64).map s.bufByte).getD j 0 = s.bufByte j := by
    intro j hj
    simp [List.getD_eq_getElem?_getD, hj]
  rw [e _ (by omega), e _ (by omega), e _ (by omega), e _ (by omega)]

@[simp] theorem State.block_setWork (s : State) (q : Quad) : (s.setWork q).block = s.block := rfl
@[simp] theorem State.block_beginCompress (s : State) : s.beginCompress.block = s.block := rfl

/-- `n` steps from index i on, with room for them below 64: the working registers as CF computes them, and the step index. -/
theorem runSteps_eq (n : Nat) (s : State) (h : s.i.toNat + n ≤ 64) :
    ∃ k, runSteps n s = { s.setWork (blockSteps s.block s.i.toNat n s.work) with i := k } := by
  induction n generalizing s with
  | zero => exact ⟨s.i, rfl⟩
  | succ n ih =>
    have hword : s.messageWord (tableK s.i) = blockWord s.block (tableK s.i) :=
      s.messageWord_eq_blockWord (tableK_lt _)
    have hi : BitVec.ofNat 6 s.i.toNat = s.i := by simp
    obtain rfl | hn := Nat.eq_zero_or_pos n
    · refine ⟨if s.i = 63 then s.i else s.i + 1, ?_⟩
      simp only [runSteps, stepAt, blockSteps, hi, hword]
    · have hne : s.i ≠ 63 := by
        intro e; rw [e] at h; simp at h; omega
      have hsucc : (s.i + 1).toNat = s.i.toNat + 1 := by
        rw [BitVec.toNat_add]; simp; omega
      have hstep : stepAt s.i s =
          { s.setWork (stepQuad (blockWord s.block (tableK s.i)) s.i s.work) with i := s.i + 1 } := by
        simp only [stepAt, hword, if_neg hne]
      obtain ⟨k, hk⟩ := ih (stepAt s.i s) (by rw [hstep]; show (s.i + 1).toNat + n ≤ 64; omega)
      refine ⟨k, ?_⟩
      simp only [runSteps, hk, blockSteps, hi]
      rw [hstep]
      show _ = _
      simp only [← hsucc]
      rfl

/-- The close of COMPRESS after steps that left (a,b,c,d) = q. -/
theorem endCompress_setWork (s : State) (q : Quad) (k : BitVec 6) :
    ({ s.beginCompress.setWork q with i := k } : State).endCompress = s.closeCompress (s.chain.add q) := rfl

/-- COMPRESS (R90, R100): CF on (A,B,C,D) and BUF, `OFF <- 0`, and the compressor's locals left without a value. -/
theorem compress_eq (s : State) : compress s = s.closeCompress (compressBlock s.chain s.block) := by
  obtain ⟨k, hk⟩ := runSteps_eq 64 s.beginCompress (by simp)
  simp only [State.i_beginCompress, State.block_beginCompress, State.work_beginCompress] at hk
  rw [compress, hk, endCompress_setWork, compressBlock]
  rfl

@[simp] theorem compress_chain (s : State) : (compress s).chain = compressBlock s.chain s.block := by simp [compress_eq]
@[simp] theorem compress_off (s : State) : (compress s).off = 0 := by simp [compress_eq]
@[simp] theorem compress_cnt (s : State) : (compress s).cnt = s.cnt := by simp [compress_eq]
@[simp] theorem compress_buf (s : State) : (compress s).buf = s.buf := by simp [compress_eq]
@[simp] theorem compress_compressing (s : State) : (compress s).compressing = false := by simp [compress_eq]
@[simp] theorem compress_phase (s : State) : (compress s).phase = s.phase := by simp [compress_eq]
@[simp] theorem compress_err (s : State) : (compress s).err = s.err := by simp [compress_eq]
@[simp] theorem compress_errcode (s : State) : (compress s).errcode = s.errcode := by simp [compress_eq]
@[simp] theorem compress_transfer (s : State) : (compress s).transfer = s.transfer := by simp [compress_eq]
@[simp] theorem compress_resetIn (s : State) : (compress s).resetIn = s.resetIn := by simp [compress_eq]
@[simp] theorem compress_cmd (s : State) : (compress s).cmd = s.cmd := by simp [compress_eq]
@[simp] theorem compress_din (s : State) : (compress s).din = s.din := by simp [compress_eq]
@[simp] theorem compress_comps (s : State) : (compress s).comps = s.comps + 1 := by simp [compress_eq]
@[simp] theorem compress_draws (s : State) : (compress s).draws = s.draws + 1 := by simp [compress_eq]

end Sys2Proof.Machine
end

