-- ==== Sys2Proof/Laws/Memory.lean ====
section
/-! SUPPORT. The laws of BUF as a memory: reading after writing, and the canonical form. -/

namespace Sys2Proof.Machine

@[simp] theorem Memory.read_write_same (m : Memory) (addr : Nat) (v : Byte) :
    Memory.read (Memory.write m addr v) addr = some v := by
  induction m with
  | nil => simp [Memory.write, Memory.read]
  | cons cell rest ih =>
    obtain ⟨x, u⟩ := cell
    simp only [Memory.write]
    split
    · simp [Memory.read]
    · split
      · simp [Memory.read]
      · next h => simp [Memory.read, Ne.symm h, ih]

theorem Memory.read_write_other (m : Memory) {addr other : Nat} (v : Byte) (h : other ≠ addr) :
    Memory.read (Memory.write m addr v) other = Memory.read m other := by
  induction m with
  | nil => simp [Memory.write, Memory.read, Ne.symm h]
  | cons cell rest ih =>
    obtain ⟨x, u⟩ := cell
    simp only [Memory.write]
    split
    · simp [Memory.read, Ne.symm h]
    · split
      · next hx => subst hx; simp [Memory.read, Ne.symm h]
      · simp [Memory.read, ih]

theorem Memory.wfFrom_write (m : Memory) {lo addr : Nat} (v : Byte) (hlo : lo ≤ addr) (h : addr < 64)
    (hm : Memory.wfFrom lo m = true) : Memory.wfFrom lo (Memory.write m addr v) = true := by
  induction m generalizing lo with
  | nil => simp [Memory.write, Memory.wfFrom, hlo, h]
  | cons cell rest ih =>
    obtain ⟨x, u⟩ := cell
    simp only [Memory.wfFrom, Bool.and_eq_true, decide_eq_true_eq] at hm
    obtain ⟨⟨hx, hx64⟩, hrest⟩ := hm
    simp only [Memory.write]
    split
    · simp [Memory.wfFrom, hlo, h, hx64, hrest]; omega
    · split
      · next hax => subst hax; simp [Memory.wfFrom, hlo, h, hrest]
      · simp [Memory.wfFrom, hx, hx64, ih (lo := x + 1) (by omega) hrest]

/-- Every write at an address of BUF keeps the canonical form. -/
theorem Memory.wf_write {m : Memory} {addr : Nat} (v : Byte) (h : addr < 64) (hm : m.wf = true) :
    (Memory.write m addr v).wf = true :=
  Memory.wfFrom_write m v (Nat.zero_le addr) h hm

/-- BUF with no value anywhere is canonical. -/
@[simp] theorem Memory.wf_nil : Memory.wf [] = true := rfl

end Sys2Proof.Machine
end

