-- ==== Sys2Proof/Laws/Stream.lean ====
section
/-! SUPPORT. What pushing bytes does, said once (`pushAll_pushed`), and what FEEDBYTES does by its source (`feedBytes_const` and the
lemmas after it). -/

namespace Sys2Proof.Machine

/-! ## Chaining over blocks -/

theorem chainBlocks_add (k l : Nat) (h : Quad) (bytes : List Byte) :
    chainBlocks (k + l) h bytes = chainBlocks l (chainBlocks k h bytes) (bytes.drop (64 * k)) := by
  induction k generalizing h bytes with
  | zero => simp [chainBlocks]
  | succ k ih =>
    rw [show k + 1 + l = (k + l) + 1 by omega, chainBlocks, ih, chainBlocks, List.drop_drop]
    congr 2
    omega

/-- Only the first `64 * k` bytes matter to the first k blocks. -/
theorem chainBlocks_append (k : Nat) (h : Quad) (xs ys : List Byte) (hk : 64 * k ≤ xs.length) :
    chainBlocks k h (xs ++ ys) = chainBlocks k h xs := by
  induction k generalizing h xs with
  | zero => rfl
  | succ k ih =>
    rw [chainBlocks, chainBlocks, List.take_append_of_le_length (by omega), List.drop_append_of_le_length (by omega)]
    exact ih _ _ (by rw [List.length_drop]; omega)

/-! ## Storing one byte -/

@[simp] theorem State.length_pendingBytes (s : State) : s.pendingBytes.length = s.off.val := by
  simp [State.pendingBytes]

theorem storeByte_eq (s : State) (v : Byte) (h : s.off.val < 64) :
    s.storeByte v = { s with buf := s.buf.write s.off.val v, off := ⟨s.off.val + 1, by omega⟩ } := by
  rw [State.storeByte, dif_pos h]

theorem storeByte_bufByte_same (s : State) (v : Byte) (h : s.off.val < 64) :
    (s.storeByte v).bufByte s.off.val = v := by
  simp [storeByte_eq s v h, State.bufByte]

theorem storeByte_bufByte_other (s : State) (v : Byte) {addr : Nat} (h : s.off.val < 64) (ha : addr ≠ s.off.val) :
    (s.storeByte v).bufByte addr = s.bufByte addr := by
  simp [storeByte_eq s v h, State.bufByte, Memory.read_write_other _ v ha]

/-- The bytes below OFF after a store: those before it, and the one stored. -/
theorem storeByte_prefixBytes (s : State) (v : Byte) (h : s.off.val < 64) :
    (List.range (s.off.val + 1)).map (s.storeByte v).bufByte = s.pendingBytes ++ [v] := by
  rw [List.range_succ, List.map_append, State.pendingBytes]
  congr 1
  · apply List.map_congr_left
    intro a ha
    exact storeByte_bufByte_other s v h (by have := List.mem_range.mp ha; omega)
  · simp [storeByte_bufByte_same s v h]

/-- Storing a byte that does not fill the buffer. -/
theorem storeByte_pushed (s : State) (v : Byte) (h : s.off.val < 63) : Pushed [v] s (s.storeByte v) := by
  have h64 : s.off.val < 64 := by omega
  have e := storeByte_eq s v h64
  have hq : (s.off.val + 1) / 64 = 0 := by omega
  constructor
  case offset => rw [e]; simp; omega
  case blocks => rw [e]; simp [hq]
  case chain => rw [e]; simp [hq, chainBlocks]; rfl
  case pending =>
    have : (s.storeByte v).off.val = s.off.val + 1 := by rw [e]
    rw [State.pendingBytes, this, storeByte_prefixBytes s v h64]
    simp [hq]
  case stored =>
    intro m hm _
    have : m = 0 := by simpa using hm
    subst this
    rw [e]
    simp [Nat.mod_eq_of_lt h64]
  case kept =>
    intro addr ha
    have := ha 0 (by simp)
    rw [e]
    exact Memory.read_write_other _ v (by omega)
  case quiet => intro _; rw [e]; exact ⟨rfl, rfl⟩
  case draws => rw [e]; simp [hq]
  case settled => intro hc; rw [e]; exact hc
  case canonical => intro hw; rw [e]; exact Memory.wf_write v h64 hw
  all_goals rw [e]

/-- PUSHBYTE, OFF being at most 63 (R111). -/
theorem pushByte_pushed (s : State) (v : Byte) (h : s.off.val ≤ 63) : Pushed [v] s (pushByte s v) := by
  have h64 : s.off.val < 64 := by omega
  have e := storeByte_eq s v h64
  have hoff : (s.storeByte v).off.val = s.off.val + 1 := by rw [e]
  rw [pushByte]
  split
  next hf =>
    have h63 : s.off.val = 63 := by
      simp only [State.bufferFull, decide_eq_true_eq] at hf; omega
    have hq : (s.off.val + 1) / 64 = 1 := by omega
    have hblock : (s.storeByte v).block = s.pendingBytes ++ [v] := by
      rw [State.block, ← storeByte_prefixBytes s v h64, h63]
    have hlen : (s.pendingBytes ++ [v]).length = 64 := by simp [h63]
    constructor
    case offset => simp [h63]
    case blocks => rw [compress_comps, e]; simp [hq]
    case chain =>
      rw [compress_chain, hblock]
      simp only [List.length_singleton, hq, chainBlocks]
      rw [List.take_of_length_le (by omega), e]
      rfl
    case pending =>
      have : (compress (s.storeByte v)).off.val = 0 := by simp
      rw [State.pendingBytes, this]
      simp [h63]
    case stored =>
      intro m hm _
      have : m = 0 := by simpa using hm
      subst this
      rw [compress_buf, e]
      simp [Nat.mod_eq_of_lt h64]
    case kept =>
      intro addr ha
      have := ha 0 (by simp)
      rw [compress_buf, e]
      exact Memory.read_write_other _ v (by omega)
    case quiet => intro hc; simp at hc; omega
    case draws => rw [compress_draws, e]; simp [hq]
    case settled => intro _; simp
    case canonical => intro hw; rw [compress_buf, e]; exact Memory.wf_write v h64 hw
    all_goals simp only [compress_cnt, compress_phase, compress_err, compress_errcode, compress_transfer,
      compress_resetIn, compress_cmd, compress_din, e]
  next hf =>
    have h63 : s.off.val < 63 := by
      simp only [State.bufferFull, decide_eq_true_eq] at hf; omega
    exact storeByte_pushed s v h63

end Sys2Proof.Machine

namespace Sys2Proof

open Machine

/-! ## Pushing one after the other -/

theorem Pushed.refl (s : State) (h : s.off.val ≤ 63) : Pushed [] s s := by
  have hm : s.off.val % 64 = s.off.val := by omega
  have hq : s.off.val / 64 = 0 := by omega
  constructor
  case offset => simp [hm]
  case blocks => simp [hq]
  case chain => simp [hq, chainBlocks]
  case pending => simp [hq]
  case stored => intro m hlt; simp at hlt
  case kept => intro _ _; rfl
  case quiet => intro _; exact ⟨rfl, rfl⟩
  case draws => simp [hq]
  case settled => exact id
  case canonical => exact id
  all_goals rfl

theorem Pushed.trans {xs ys : List Byte} {s t u : State} (h1 : Pushed xs s t) (h2 : Pushed ys t u) :
    Pushed (xs ++ ys) s u := by
  have ho := h1.offset
  have hq : (s.off.val + (xs.length + ys.length)) / 64 =
      (s.off.val + xs.length) / 64 + (t.off.val + ys.length) / 64 := by omega
  have hl : 64 * ((s.off.val + xs.length) / 64) ≤ (s.pendingBytes ++ xs).length := by
    simp; omega
  constructor
  case offset => rw [h2.offset, List.length_append]; omega
  case blocks => rw [h2.blocks, h1.blocks, List.length_append]; omega
  case chain =>
    rw [h2.chain, h1.chain, h1.pending, List.length_append, hq, ← List.append_assoc, chainBlocks_add,
      chainBlocks_append _ _ _ _ hl, List.drop_append_of_le_length hl]
  case pending =>
    rw [h2.pending, h1.pending, List.length_append, hq, ← List.append_assoc, Nat.mul_add, ← List.drop_drop,
      List.drop_append_of_le_length hl]
  case stored =>
    intro m hm hlast
    rw [List.length_append] at hm hlast
    by_cases hx : m < xs.length
    · rw [h2.kept _ (by intro m' hm'; omega), h1.stored m hx (by omega), List.getElem?_append_left hx]
    · rw [List.getElem?_append_right (by omega), ← h2.stored (m - xs.length) (by omega) (by omega)]
      congr 1
      omega
  case kept =>
    intro addr ha
    rw [h2.kept addr, h1.kept addr]
    · intro m hm
      exact ha m (by rw [List.length_append]; omega)
    · intro m hm
      have := ha (xs.length + m) (by rw [List.length_append]; omega)
      omega
  case quiet =>
    intro hlt
    rw [List.length_append] at hlt
    have a := h1.quiet (by omega)
    have b := h2.quiet (by omega)
    exact ⟨b.1.trans a.1, b.2.trans a.2⟩
  case draws => rw [h2.draws, h1.draws, List.length_append]; omega
  case settled => exact fun hc => h2.settled (h1.settled hc)
  case canonical => exact fun hw => h2.canonical (h1.canonical hw)
  case cnt => exact h2.cnt.trans h1.cnt
  case phase => exact h2.phase.trans h1.phase
  case err => exact h2.err.trans h1.err
  case errcode => exact h2.errcode.trans h1.errcode
  case transfer => exact h2.transfer.trans h1.transfer
  case resetIn => exact h2.resetIn.trans h1.resetIn
  case cmd => exact h2.cmd.trans h1.cmd
  case din => exact h2.din.trans h1.din

/-- After pushing, OFF is at most 63 (R111). -/
theorem Pushed.offset_le {bytes : List Byte} {s t : State} (h : Pushed bytes s t) : t.off.val ≤ 63 := by
  have := h.offset; omega

end Sys2Proof

namespace Sys2Proof.Machine

@[simp] theorem pushAll_nil (s : State) : pushAll [] s = s := rfl
@[simp] theorem pushAll_cons (v : Byte) (bytes : List Byte) (s : State) :
    pushAll (v :: bytes) s = pushAll bytes (pushByte s v) := rfl

theorem pushAll_append (xs ys : List Byte) (s : State) : pushAll (xs ++ ys) s = pushAll ys (pushAll xs s) := by
  simp [pushAll]

/-- What pushing a list of bytes does, OFF being at most 63 at the start. -/
theorem pushAll_pushed (bytes : List Byte) (s : State) (h : s.off.val ≤ 63) : Pushed bytes s (pushAll bytes s) := by
  induction bytes generalizing s with
  | nil => exact Pushed.refl s h
  | cons v bytes ih =>
    have h1 := pushByte_pushed s v h
    exact h1.trans (ih _ h1.offset_le)

/-! ## What pushing neither reads nor writes -/

/-- The fields that no push reads or writes: CNT, PHASE, the transfer, CMD and DIN, given the values named. -/
def State.withFrame (s : State) (cnt : BitVec 64) (phase : Phase) (transfer : Option Transfer) (cmd : List Word)
    (din : List Byte) : State :=
  { s with cnt := cnt, phase := phase, transfer := transfer, cmd := cmd, din := din }

section Frame

variable (cnt : BitVec 64) (phase : Phase) (transfer : Option Transfer) (cmd : List Word) (din : List Byte)

theorem compress_withFrame (s : State) :
    compress (s.withFrame cnt phase transfer cmd din) = (compress s).withFrame cnt phase transfer cmd din := by
  have hc : (s.withFrame cnt phase transfer cmd din).chain = s.chain := rfl
  have hb : (s.withFrame cnt phase transfer cmd din).block = s.block := rfl
  rw [compress_eq, compress_eq, hc, hb]
  generalize compressBlock s.chain s.block = q
  rfl

theorem storeByte_withFrame (s : State) (v : Byte) :
    (s.withFrame cnt phase transfer cmd din).storeByte v = (s.storeByte v).withFrame cnt phase transfer cmd din := by
  by_cases h : s.off.val < 64
  · rw [storeByte_eq s v h, storeByte_eq _ v (show (s.withFrame cnt phase transfer cmd din).off.val < 64 from h)]
    rfl
  · have h' : ¬ (s.withFrame cnt phase transfer cmd din).off.val < 64 := h
    rw [State.storeByte, State.storeByte, dif_neg h, dif_neg h']

theorem pushByte_withFrame (s : State) (v : Byte) :
    pushByte (s.withFrame cnt phase transfer cmd din) v = (pushByte s v).withFrame cnt phase transfer cmd din := by
  have hf : ((s.storeByte v).withFrame cnt phase transfer cmd din).bufferFull = (s.storeByte v).bufferFull := rfl
  rw [pushByte, pushByte, storeByte_withFrame, hf]
  split
  · exact compress_withFrame ..
  · rfl

/-- Pushing leaves CNT, PHASE, the transfer, CMD and DIN as they are, and does not depend on them. -/
theorem pushAll_withFrame (bytes : List Byte) (s : State) :
    pushAll bytes (s.withFrame cnt phase transfer cmd din) =
      (pushAll bytes s).withFrame cnt phase transfer cmd din := by
  induction bytes generalizing s with
  | nil => rfl
  | cons v bytes ih => rw [pushAll_cons, pushAll_cons, pushByte_withFrame, ih]

end Frame

/-- The fields that no push changes, whatever OFF is: CNT, PHASE, the fault record, the transfer, and what the host has sent. -/
structure Unpushed (s t : State) : Prop where
  cnt : t.cnt = s.cnt
  phase : t.phase = s.phase
  err : t.err = s.err
  errcode : t.errcode = s.errcode
  transfer : t.transfer = s.transfer
  resetIn : t.resetIn = s.resetIn
  cmd : t.cmd = s.cmd
  din : t.din = s.din

theorem pushByte_unpushed (s : State) (v : Byte) : Unpushed s (pushByte s v) := by
  have hs : Unpushed s (s.storeByte v) := by
    rw [State.storeByte]
    split <;> exact ⟨rfl, rfl, rfl, rfl, rfl, rfl, rfl, rfl⟩
  rw [pushByte]
  split
  · constructor
    case cnt => simpa using hs.cnt
    case phase => simpa using hs.phase
    case err => simpa using hs.err
    case errcode => simpa using hs.errcode
    case transfer => simpa using hs.transfer
    case resetIn => simpa using hs.resetIn
    case cmd => simpa using hs.cmd
    case din => simpa using hs.din
  · exact hs

/-- Pushing changes none of these fields, whatever OFF is. -/
theorem pushAll_unpushed (bytes : List Byte) (s : State) : Unpushed s (pushAll bytes s) := by
  induction bytes generalizing s with
  | nil => exact ⟨rfl, rfl, rfl, rfl, rfl, rfl, rfl, rfl⟩
  | cons v bytes ih =>
    have h := pushByte_unpushed s v
    have k := ih (pushByte s v)
    exact ⟨k.cnt.trans h.cnt, k.phase.trans h.phase, k.err.trans h.err, k.errcode.trans h.errcode,
      k.transfer.trans h.transfer, k.resetIn.trans h.resetIn, k.cmd.trans h.cmd, k.din.trans h.din⟩

/-! ## FEEDBYTES by its source -/

/-- With OFF at most 63 the defensive compression of R112 is dead. -/
theorem compressIfFull_of_le (s : State) (h : s.off.val ≤ 63) : compressIfFull s = s := by
  have : s.off.val ≠ 64 := by omega
  simp [compressIfFull, State.bufferFull, this]

@[simp] theorem feedBytes_zero (src : ByteSrc) (s : State) : feedBytes 0#16 src s = s := rfl

/-- FEEDBYTES of copies of a byte, OFF being at most 63 (R113, R117). -/
theorem feedBytes_const (n : BitVec 16) (v : Byte) (s : State) (h : s.off.val ≤ 63) :
    feedBytes n (.const v) s = pushAll (List.replicate n.toNat v) (s.count n) := by
  by_cases hn : n = 0
  · subst hn; simp [State.count]
  · rw [feedBytes, if_neg hn]
    simp only [sourceBytes]
    rw [compressIfFull_of_le (s.count n) h]

/-- FEEDBYTES of bytes of the length field, OFF being at most 63 (R113, R135). -/
theorem feedBytes_lengthField (n : BitVec 16) (bits : BitVec 64) (s : State) (h : s.off.val ≤ 63) :
    feedBytes n (.lengthField bits) s = pushAll ((leBytes 8 bits).take n.toNat) (s.count n) := by
  by_cases hn : n = 0
  · subst hn; simp [State.count]
  · rw [feedBytes, if_neg hn]
    simp only [sourceBytes]
    rw [compressIfFull_of_le (s.count n) h]

/-- FEEDBYTES of DIN's bytes, OFF being at most 63 (R113, R114). -/
theorem feedBytes_din (n : BitVec 16) (s : State) (h : s.off.val ≤ 63) (hn : n ≠ 0) :
    feedBytes n .din s = pullPush n.toNat (s.count n) := by
  rw [feedBytes, if_neg hn, compressIfFull_of_le (s.count n) h]

/-- Popping and pushing as one equation: the bytes DIN has, up to n of them, and a transfer for the rest (R185). -/
theorem pullPush_eq (n : Nat) (s : State) :
    pullPush n s = (pushAll (s.din.take n) s).withFrame s.cnt s.phase
      (if s.din.length < n then some (.push (n - s.din.length)) else none) s.cmd (s.din.drop n) := by
  have h : ({ s with din := s.din.drop n } : State) = s.withFrame s.cnt s.phase s.transfer s.cmd (s.din.drop n) := rfl
  rw [pullPush, h, pushAll_withFrame]
  rfl

end Sys2Proof.Machine
end

