-- ==== Sys2Proof/Laws/Finalizer.lean ====
section
/-! SUPPORT. What FINAL does, said once (`finalize_eq`): it pushes the trailer and counts it. -/

namespace Sys2Proof.Machine

@[simp] theorem length_leBytes {w : Nat} (n : Nat) (v : BitVec w) : (leBytes n v).length = n := by
  simp [leBytes]

@[simp] theorem trailer_length (s : State) : (trailer s).length = zeroCount s.off.val + 9 := by
  simp [trailer]

/-- The bytes `bytes` are fed: pushed one after the other and counted in CNT (R113). -/
def State.fed (s : State) (bytes : List Byte) : State :=
  { pushAll bytes s with cnt := s.cnt + BitVec.ofNat 64 bytes.length }

theorem State.fed_eq_pushAll (s : State) (bytes : List Byte) (h : s.off.val ≤ 63) :
    pushAll bytes { s with cnt := s.cnt + BitVec.ofNat 64 bytes.length } = s.fed bytes := by
  have hc : ({ s with cnt := s.cnt + BitVec.ofNat 64 bytes.length } : State) =
      s.withFrame (s.cnt + BitVec.ofNat 64 bytes.length) s.phase s.transfer s.cmd s.din := rfl
  have hp := pushAll_pushed bytes s h
  rw [hc, pushAll_withFrame, State.withFrame, State.fed, ← hp.phase, ← hp.transfer, ← hp.cmd, ← hp.din]

theorem State.fed_offset (s : State) (bytes : List Byte) (h : s.off.val ≤ 63) :
    (s.fed bytes).off.val = (s.off.val + bytes.length) % 64 :=
  (pushAll_pushed bytes s h).offset

/-- Feeding one list after another is feeding their concatenation (R116). -/
theorem State.fed_fed (s : State) (xs ys : List Byte) (h : s.off.val ≤ 63) :
    (s.fed xs).fed ys = s.fed (xs ++ ys) := by
  have hx : (s.fed xs).off.val ≤ 63 := by rw [s.fed_offset xs h]; omega
  have ha : (s.fed xs).cnt + BitVec.ofNat 64 ys.length = s.cnt + BitVec.ofNat 64 (xs ++ ys).length := by
    show s.cnt + BitVec.ofNat 64 xs.length + BitVec.ofNat 64 ys.length = _
    rw [List.length_append, BitVec.add_assoc, BitVec.ofNat_add_ofNat]
  rw [← State.fed_eq_pushAll _ ys hx, ha, ← State.fed_eq_pushAll _ (xs ++ ys) h, pushAll_append]
  congr 1
  have hc : ({ s with cnt := s.cnt + BitVec.ofNat 64 (xs ++ ys).length } : State) =
      s.withFrame (s.cnt + BitVec.ofNat 64 (xs ++ ys).length) s.phase s.transfer s.cmd s.din := rfl
  have hp := pushAll_pushed xs s h
  rw [hc, pushAll_withFrame, State.withFrame, State.fed, ← hp.phase, ← hp.transfer, ← hp.cmd, ← hp.din]

/-- FEEDBYTES of `n` copies feeds them, OFF being at most 63. -/
theorem feedBytes_const_fed (n : Nat) (v : Byte) (s : State) (h : s.off.val ≤ 63) (hn : n < 2 ^ 16) :
    feedBytes (BitVec.ofNat 16 n) (.const v) s = s.fed (List.replicate n v) := by
  have hc : (BitVec.ofNat 16 n).setWidth 64 = BitVec.ofNat 64 n := by
    apply BitVec.eq_of_toNat_eq
    simp
    omega
  rw [feedBytes_const _ _ _ h, BitVec.toNat_ofNat, Nat.mod_eq_of_lt hn, State.count, hc,
    ← State.fed_eq_pushAll _ _ h, List.length_replicate]

/-- The length field is fed whole (R135). -/
theorem padLength_fed (bits : BitVec 64) (s : State) (h : s.off.val ≤ 63) : padLength bits s = s.fed (leBytes 8 bits) := by
  rw [padLength, feedBytes_lengthField _ _ _ h, ← State.fed_eq_pushAll _ _ h, State.count]
  congr 1

/-- FINAL in phase ACTIVE (R131 to R135), OFF being at most 63: the trailer is fed, and PHASE is DONE. -/
theorem finalize_eq (s : State) (h : s.off.val ≤ 63) : finalize s = { s.fed (trailer s) with phase := .done } := by
  have h1 : padMarker s = s.fed [markerByte] := feedBytes_const_fed 1 markerByte s h (by omega)
  have o1 : (padMarker s).off.val = (s.off.val + 1) % 64 := by rw [h1, s.fed_offset _ h]; rfl
  have h2 : padBlock (padMarker s) =
      s.fed (markerByte :: List.replicate (if 64 - (s.off.val + 1) % 64 < 8 then 64 - (s.off.val + 1) % 64 else 0) fillByte) := by
    rw [padBlock, State.lengthDoesNotFit, o1]
    split
    next hlt =>
      simp only [decide_eq_true_eq] at hlt
      rw [feedBytes_const_fed _ _ _ (by omega) (by omega), h1, State.fed_fed _ _ _ h, if_pos hlt]
      rfl
    next hlt =>
      simp only [decide_eq_true_eq] at hlt
      rw [if_neg hlt, h1]
      rfl
  have o2 : (padBlock (padMarker s)).off.val =
      (s.off.val + 1 + if 64 - (s.off.val + 1) % 64 < 8 then 64 - (s.off.val + 1) % 64 else 0) % 64 := by
    rw [h2, s.fed_offset _ h]; simp; omega
  have h3 : padZeros (padBlock (padMarker s)) = s.fed (markerByte :: List.replicate (zeroCount s.off.val) fillByte) := by
    rw [padZeros, feedBytes_const_fed _ _ _ (by omega) (by omega), o2, h2, State.fed_fed _ _ _ h, List.cons_append,
      ← List.replicate_add]
    congr 3
    unfold zeroCount
    split <;> split <;> omega
  have o3 : (padZeros (padBlock (padMarker s))).off.val ≤ 63 := by rw [h3, s.fed_offset _ h]; omega
  rw [finalize, padLength_fed _ _ o3, h3, State.fed_fed _ _ _ h]
  rfl

end Sys2Proof.Machine
end

