-- ==== Sys2Proof/Laws/Step.lean ====
section
/-! SUPPORT. What a step does, one lemma per kind of action, and how a run unfolds. -/

namespace Sys2Proof.Machine

/-- Laying out the two fields of a step index that it was read from gives it back (R68). -/
theorem decodeStep_fields (i : BitVec 6) :
    (fieldRound i = 0 → stepIndex 0 (fieldPos i) = i) ∧ (fieldRound i = 1 → stepIndex 1 (fieldPos i) = i) ∧
    (fieldRound i = 2 → stepIndex 2 (fieldPos i) = i) ∧
    (fieldRound i ≠ 0 → fieldRound i ≠ 1 → fieldRound i ≠ 2 → stepIndex 3 (fieldPos i) = i) := by
  revert i; decide

/-- The micro-operation a step index selects runs STEP of that index (R69, R104). -/
theorem exec_decodeStep (i : BitVec 6) (s : State) : exec (decodeStep i) s = .next (stepAt i s) := by
  obtain ⟨h0, h1, h2, h3⟩ := decodeStep_fields i
  unfold decodeStep
  split
  · next h => simp only [exec, execStepF, h0 h]
  split
  · next h => simp only [exec, execStepG, h1 h]
  split
  · next h => simp only [exec, execStepH, h2 h]
  · simp only [exec, execStepI, h3 ‹_› ‹_› ‹_›]

theorem step_of_reset {s : State} (h : s.resetIn = true) : step s = .next (resetCore s) := by
  rw [step, fetch, if_pos h]

theorem step_of_micro {s : State} (hr : s.resetIn = false) (hc : s.compressing = true) :
    step s = .next (closeStep s.i (stepAt s.i s)) := by
  rw [step, fetch, if_neg (by simp [hr]), if_pos hc]
  simp only
  rw [exec_decodeStep]
  rfl

theorem step_of_transfer {s : State} {x : Transfer} (hr : s.resetIn = false) (hc : s.compressing = false)
    (ht : s.transfer = some x) : step s = .next (resumeTransfer x s) := by
  rw [step, fetch, if_neg (by simp [hr]), if_neg (by simp [hc]), ht]

theorem fetch_of_ready {s : State} (hr : s.resetIn = false) (hc : s.compressing = false) (ht : s.transfer = none) :
    fetch s = fetchCommand s := by
  rw [fetch, if_neg (by simp [hr]), if_neg (by simp [hc]), ht]

theorem step_of_idle {s : State} (hr : s.resetIn = false) (hc : s.compressing = false) (ht : s.transfer = none)
    (hq : s.cmd = []) : step s = .next s := by
  rw [step, fetch_of_ready hr hc ht, fetchCommand, hq]

theorem step_of_command {s : State} {w : Word} {rest : List Word} {op : Instr} (hr : s.resetIn = false)
    (hc : s.compressing = false) (ht : s.transfer = none) (hq : s.cmd = w :: rest) (hd : decode (.cmd w) = .ok op) :
    step s = exec op (takeCommand s) := by
  rw [step, fetch_of_ready hr hc ht, fetchCommand, hq]
  simp only [hd]

theorem step_of_illegal {s : State} {w : Word} {rest : List Word} {why : Reject} (hr : s.resetIn = false)
    (hc : s.compressing = false) (ht : s.transfer = none) (hq : s.cmd = w :: rest)
    (hd : decode (.cmd w) = .error why) : step s = .next (raiseFault .illegalCmd (takeCommand s)) := by
  rw [step, fetch_of_ready hr hc ht, fetchCommand, hq]
  simp only [hd]

/-- Only the four commands are read from a command word (R61). -/
theorem decodeCmd_commands {w : Word} {op : Instr} (h : decode (.cmd w) = .ok op) :
    op = .init ∨ (∃ len, op = .feed len) ∨ (∃ v n, op = .fill v n) ∨ op = .final := by
  simp only [decode, decodeCmd] at h
  repeat' split at h
  all_goals (try cases h)
  all_goals simp

/-- Everything a step can do: it answers a next state in one of six ways. -/
theorem step_cases {s t : State} (h : step s = .next t) :
    (s.resetIn = true ∧ t = resetCore s) ∨
    (s.resetIn = false ∧ s.compressing = true ∧ t = closeStep s.i (stepAt s.i s)) ∨
    (s.resetIn = false ∧ s.compressing = false ∧ ∃ x, s.transfer = some x ∧ t = resumeTransfer x s) ∨
    (s.resetIn = false ∧ s.compressing = false ∧ s.transfer = none ∧
      ((s.cmd = [] ∧ t = s) ∨
        (∃ op, fetch s = .command op ∧ exec op (takeCommand s) = .next t ∧
          (op = .init ∨ (∃ len, op = .feed len) ∨ (∃ v n, op = .fill v n) ∨ op = .final)) ∨
        (∃ why, fetch s = .illegal why ∧ t = raiseFault .illegalCmd (takeCommand s)))) := by
  cases hr : s.resetIn with
  | true =>
    rw [step_of_reset hr] at h
    cases h
    exact .inl ⟨rfl, rfl⟩
  | false =>
    cases hc : s.compressing with
    | true =>
      rw [step_of_micro hr hc] at h
      cases h
      exact .inr (.inl ⟨rfl, rfl, rfl⟩)
    | false =>
      cases ht : s.transfer with
      | some x =>
        rw [step_of_transfer hr hc ht] at h
        cases h
        exact .inr (.inr (.inl ⟨rfl, rfl, x, rfl, rfl⟩))
      | none =>
        refine .inr (.inr (.inr ⟨rfl, rfl, rfl, ?_⟩))
        cases hq : s.cmd with
        | nil =>
          rw [step_of_idle hr hc ht hq] at h
          cases h
          exact .inl ⟨rfl, rfl⟩
        | cons w rest =>
          have hf : fetch s = fetchCommand s := fetch_of_ready hr hc ht
          cases hd : decode (.cmd w) with
          | ok op =>
            rw [step_of_command hr hc ht hq hd] at h
            refine .inr (.inl ⟨op, ?_, h, decodeCmd_commands hd⟩)
            rw [hf, fetchCommand, hq]
            simp only [hd]
          | error why =>
            rw [step_of_illegal hr hc ht hq hd] at h
            cases h
            refine .inr (.inr ⟨why, ?_, rfl⟩)
            rw [hf, fetchCommand, hq]
            simp only [hd]

/-- A run of no steps. -/
theorem run_zero (s : State) : core.run 0 s = .next s := rfl

/-- A run whose first step answers a next state. -/
theorem run_succ_of_step {s t : State} (n : Nat) (h : step s = .next t) : core.run (n + 1) s = core.run n t := by
  have hs : core.step s = .next t := h
  simp only [Host.Core.run, hs]

end Sys2Proof.Machine
end

