-- ==== Sys2Proof/Laws/Commands.lean ====
section
/-! SUPPORT. What taking a fault, RESET, and the commands do to the control part of the state (PHASE, the fault record, RESET and
CMD), whatever OFF is. -/

namespace Sys2Proof.Machine

/-- Taking a fault (R154, R158): the record. -/
@[simp] theorem raiseFault_phase (code : ErrCode) (s : State) : (raiseFault code s).phase = .faulted := rfl
@[simp] theorem raiseFault_err (code : ErrCode) (s : State) : (raiseFault code s).err = true := rfl
@[simp] theorem raiseFault_errcode (code : ErrCode) (s : State) :
    (raiseFault code s).errcode = if s.err then s.errcode else code := rfl
@[simp] theorem raiseFault_transfer (code : ErrCode) (s : State) : (raiseFault code s).transfer = none := rfl
@[simp] theorem raiseFault_buf (code : ErrCode) (s : State) : (raiseFault code s).buf = [] := rfl
@[simp] theorem raiseFault_compressing (code : ErrCode) (s : State) : (raiseFault code s).compressing = s.compressing := rfl
@[simp] theorem raiseFault_resetIn (code : ErrCode) (s : State) : (raiseFault code s).resetIn = s.resetIn := rfl
@[simp] theorem raiseFault_cmd (code : ErrCode) (s : State) : (raiseFault code s).cmd = s.cmd := rfl
@[simp] theorem raiseFault_din (code : ErrCode) (s : State) : (raiseFault code s).din = s.din := rfl

/-- RESET (R180): the control part. -/
@[simp] theorem resetCore_phase (s : State) : (resetCore s).phase = .idle := rfl
@[simp] theorem resetCore_err (s : State) : (resetCore s).err = false := rfl
@[simp] theorem resetCore_errcode (s : State) : (resetCore s).errcode = .none := rfl
@[simp] theorem resetCore_transfer (s : State) : (resetCore s).transfer = none := rfl
@[simp] theorem resetCore_compressing (s : State) : (resetCore s).compressing = false := rfl
@[simp] theorem resetCore_buf (s : State) : (resetCore s).buf = [] := rfl
@[simp] theorem resetCore_din (s : State) : (resetCore s).din = [] := rfl
@[simp] theorem resetCore_cmd (s : State) : (resetCore s).cmd = s.cmd := rfl
@[simp] theorem resetCore_resetIn (s : State) : (resetCore s).resetIn = false := rfl

/-- The fields that moving bytes leaves as they are, whatever OFF is. -/
structure ControlKept (s t : State) : Prop where
  phase : t.phase = s.phase
  err : t.err = s.err
  errcode : t.errcode = s.errcode
  resetIn : t.resetIn = s.resetIn
  cmd : t.cmd = s.cmd

theorem ControlKept.trans {s t u : State} (h : ControlKept s t) (k : ControlKept t u) : ControlKept s u :=
  ⟨k.phase.trans h.phase, k.err.trans h.err, k.errcode.trans h.errcode, k.resetIn.trans h.resetIn, k.cmd.trans h.cmd⟩

theorem pushAll_controlKept (bytes : List Byte) (s : State) : ControlKept s (pushAll bytes s) :=
  have k := pushAll_unpushed bytes s
  ⟨k.phase, k.err, k.errcode, k.resetIn, k.cmd⟩

theorem pullPush_controlKept (n : Nat) (s : State) : ControlKept s (pullPush n s) := by
  have k := pushAll_unpushed (s.din.take n) s
  rw [pullPush_eq]
  exact ⟨rfl, k.err, k.errcode, k.resetIn, rfl⟩

theorem compressIfFull_controlKept (s : State) : ControlKept s (compressIfFull s) := by
  rw [compressIfFull]
  split
  · exact ⟨by simp, by simp, by simp, by simp, by simp⟩
  · exact ⟨rfl, rfl, rfl, rfl, rfl⟩

/-- FEEDBYTES (R113) writes no control state. -/
theorem feedBytes_controlKept (n : BitVec 16) (src : ByteSrc) (s : State) : ControlKept s (feedBytes n src s) := by
  have k := compressIfFull_controlKept (s.count n)
  have hc : ControlKept s (compressIfFull (s.count n)) := ⟨k.phase, k.err, k.errcode, k.resetIn, k.cmd⟩
  unfold feedBytes
  split
  · exact ⟨rfl, rfl, rfl, rfl, rfl⟩
  · cases src with
    | din => exact hc.trans (pullPush_controlKept _ _)
    | const v => exact hc.trans (pushAll_controlKept _ _)
    | lengthField bits => exact hc.trans (pushAll_controlKept _ _)

theorem padBlock_controlKept (s : State) : ControlKept s (padBlock s) := by
  rw [padBlock]
  split
  · exact feedBytes_controlKept ..
  · exact ⟨rfl, rfl, rfl, rfl, rfl⟩

theorem padLength_controlKept (bits : BitVec 64) (s : State) : ControlKept s (padLength bits s) := feedBytes_controlKept ..

/-- The whole trailer, before PHASE is written. -/
theorem pad_controlKept (bits : BitVec 64) (s : State) :
    ControlKept s (padLength bits (padZeros (padBlock (padMarker s)))) := by
  have h1 : ControlKept s (padMarker s) := feedBytes_controlKept ..
  have h2 := h1.trans (padBlock_controlKept (padMarker s))
  generalize padBlock (padMarker s) = t at *
  have h3 : ControlKept t (padZeros t) := feedBytes_controlKept ..
  exact (h2.trans h3).trans (padLength_controlKept bits _)

@[simp] theorem finalize_phase (s : State) : (finalize s).phase = .done := rfl
@[simp] theorem finalize_err (s : State) : (finalize s).err = s.err := by
  simp only [finalize]; exact (pad_controlKept (bitLength s.cnt) s).err
@[simp] theorem finalize_errcode (s : State) : (finalize s).errcode = s.errcode := by
  simp only [finalize]; exact (pad_controlKept (bitLength s.cnt) s).errcode
@[simp] theorem finalize_resetIn (s : State) : (finalize s).resetIn = s.resetIn := by
  simp only [finalize]; exact (pad_controlKept (bitLength s.cnt) s).resetIn
@[simp] theorem finalize_cmd (s : State) : (finalize s).cmd = s.cmd := by
  simp only [finalize]; exact (pad_controlKept (bitLength s.cnt) s).cmd

/-- A FEED outside phase ACTIVE, or a held one (R114, R154): it waits for more payload, or it has discarded it and faults. -/
theorem pullDiscard_cases (n : Nat) (s : State) :
    (s.din.length < n ∧
      pullDiscard n s = { s with din := s.din.drop n, transfer := some (.discard (n - s.din.length)) }) ∨
    (n ≤ s.din.length ∧ pullDiscard n s = raiseFault (feedFault s.phase) { s with din := s.din.drop n }) := by
  rw [pullDiscard]
  split
  · exact .inl ⟨‹_›, rfl⟩
  · exact .inr ⟨by omega, rfl⟩

/-- The step that ends a compression, and every other, writes no control state (R100, R104). -/
theorem closeStep_controlKept (i : BitVec 6) (s : State) : ControlKept s (closeStep i s) := by
  rw [closeStep]
  split <;> exact ⟨rfl, rfl, rfl, rfl, rfl⟩

/-- A FEED or FILL outside phase ACTIVE has a fault code of its own (R153). -/
theorem feedFault_code {p : Phase} (h : p ≠ .active) : feedFault p ≠ .illegalCmd ∧ feedFault p ≠ .none := by
  cases p <;> simp_all [feedFault]

/-- A FINAL outside phase ACTIVE has a fault code of its own (R153). -/
theorem finalFault_code {p : Phase} (h : p ≠ .active) : finalFault p ≠ .illegalCmd ∧ finalFault p ≠ .none := by
  cases p <;> simp_all [finalFault]

end Sys2Proof.Machine
end

