-- ==== Sys2Proof/Laws/Message.lean ====
section
/-! SUPPORT. Feeding bytes to a core that holds a message, said once: `Holds.pushed`. -/

namespace Sys2Proof

open Machine

/-- The pending bytes are the bytes of the message after its whole blocks (R24, R35 item 4). -/
theorem Holds.pendingBytes {msg : List Byte} {s : State} (h : Holds msg s) :
    s.pendingBytes = msg.drop (64 * (msg.length / 64)) := by
  apply List.ext_getElem?
  intro j
  simp only [State.pendingBytes, List.getElem?_map, List.getElem?_drop]
  by_cases hj : j < msg.length % 64
  · rw [h.offset, List.getElem?_range hj, Option.map_some, State.bufByte, h.pending j hj,
      List.getElem?_eq_getElem (by omega), Option.getD_some]
  · rw [List.getElem?_eq_none (by rw [List.length_range, h.offset]; omega), List.getElem?_eq_none (by omega)]
    rfl

/-- The chaining value over a longer message, from that over its beginning (R52, R143). -/
theorem chainOf_append (msg bytes : List Byte) :
    chainOf (msg ++ bytes) =
      chainBlocks ((msg.length % 64 + bytes.length) / 64) (chainOf msg) (msg.drop (64 * (msg.length / 64)) ++ bytes) := by
  have e : (msg ++ bytes).length / 64 = msg.length / 64 + (msg.length % 64 + bytes.length) / 64 := by
    rw [List.length_append]; omega
  rw [chainOf, e, chainBlocks_add, chainBlocks_append _ _ _ _ (by omega), List.drop_append_of_le_length (by omega)]
  rfl

/-- What a state holds does not depend on what the host has sent. -/
theorem Holds.host {msg : List Byte} {s : State} (h : Holds msg s) (cmd : List Word) (din : List Byte) :
    Holds msg { s with cmd := cmd, din := din } :=
  ⟨h.active, h.boundary, h.chain, h.count, h.offset, h.pending, h.blocks⟩

/-- Bytes pushed to a core that holds `msg`, CNT having counted them: everything R35 says of the longer message, but for PHASE, which
pushing leaves as it is. -/
theorem Holds.pushed {msg bytes : List Byte} {s u t : State} (h : Holds msg s)
    (hu : u = s.withFrame (s.cnt + BitVec.ofNat 64 bytes.length) u.phase none u.cmd u.din) (hp : Pushed bytes u t) :
    t.chain = chainOf (msg ++ bytes) ∧ t.cnt = BitVec.ofNat 64 (msg ++ bytes).length ∧
    t.off.val = (msg ++ bytes).length % 64 ∧ t.comps = (msg ++ bytes).length / 64 ∧
    (∀ j, j < (msg ++ bytes).length % 64 → t.buf.read j = (msg ++ bytes)[64 * ((msg ++ bytes).length / 64) + j]?) ∧
    t.transfer = none := by
  have ho := h.offset
  have huo : u.off = s.off := by rw [hu]; rfl
  have hub : u.buf = s.buf := by rw [hu]; rfl
  have huc : u.chain = s.chain := by rw [hu]; rfl
  have hupb : u.pendingBytes = s.pendingBytes := by
    have hd : u.draws = s.draws := by rw [hu]; rfl
    have hb : u.bufByte = s.bufByte := by funext a; rw [State.bufByte, State.bufByte, hub, hd]
    rw [State.pendingBytes, State.pendingBytes, huo, hb]
  refine ⟨?_, ?_, ?_, ?_, ?_, ?_⟩
  · rw [hp.chain, hupb, huo, huc, h.pendingBytes, h.chain, ho, chainOf_append]
  · have hun : u.cnt = s.cnt + BitVec.ofNat 64 bytes.length := by rw [hu]; rfl
    rw [hp.cnt, hun, h.count, List.length_append, BitVec.ofNat_add_ofNat]
  · rw [hp.offset, huo, List.length_append]; omega
  · have hum : u.comps = s.comps := by rw [hu]; rfl
    rw [hp.blocks, hum, huo, h.blocks, List.length_append]; omega
  · intro j hj
    rw [List.length_append] at *
    by_cases hlt : 64 * ((msg.length + bytes.length) / 64) + j < msg.length
    · have hq : (msg.length + bytes.length) / 64 = msg.length / 64 := by
        have : msg.length / 64 ≤ (msg.length + bytes.length) / 64 := Nat.div_le_div_right (by omega)
        omega
      rw [hp.kept j (by intro m hm; omega), hub, h.pending j (by omega), hq, List.getElem?_append_left (by omega)]
    · rw [List.getElem?_append_right (by omega), ← hp.stored _ (by omega) (by omega)]
      congr 1; omega
  · rw [hp.transfer, hu]; rfl

/-- The bytes of P(M) are those of the message followed by the trailer that FINAL feeds (R130, R143). -/
theorem Holds.padded_eq {msg : List Byte} {s : State} (h : Holds msg s) : padded msg = msg ++ trailer s := by
  have hb : bitLength s.cnt = BitVec.ofNat 64 (8 * msg.length) := by
    rw [h.count, bitLength]
    apply BitVec.eq_of_toNat_eq
    simp [Nat.shiftLeft_eq]
    omega
  rw [padded, trailer, h.offset, hb]
  simp

/-- The length of P(M) (R137, R143). -/
theorem length_padded (msg : List Byte) : (padded msg).length = msg.length + 1 + zeroCount (msg.length % 64) + 8 := by
  simp [padded]
  omega

/-- z by its two cases (R134). -/
theorem zeroCount_cases (p : Nat) : (p ≤ 55 ∧ zeroCount p = 55 - p) ∨ (56 ≤ p ∧ zeroCount p = 119 - p) := by
  rw [zeroCount]
  split
  · exact .inl ⟨‹_›, rfl⟩
  · exact .inr ⟨by omega, rfl⟩

end Sys2Proof
end

