-- ==== Sys2Proof/Laws/PerInstr.lean ====
section
/-! SUPPORT. A statement per instruction: its code matches the (match, mask) pair of its row in spec/opcode_table.json, and an
instruction whose row has no bit pattern has no code. -/

namespace Sys2Proof.Laws.RowPattern

/-- The bit pattern of a row of spec/opcode_table.json (R62 to R65, R69, R77). -/
inductive Row where
  /-- Format CMD: mask and match of a 32-bit word. -/
  | cmd (mask pattern : Word)
  /-- Format STEP: mask and match of a 6-bit index. -/
  | step (mask pattern : BitVec 6)
  /-- No bit pattern. -/
  | blank

/-- The row of each instruction, copied from spec/opcode_table.json. -/
def row : Instr → Row
  | .init => .cmd 0xFFFFFFFF 0x10000000
  | .feed _ => .cmd 0xFFFF0000 0x20000000
  | .fill _ _ => .cmd 0xFF000000 0x30000000
  | .final => .cmd 0xFFFFFFFF 0x40000000
  | .stepF _ => .step 0x30 0x00
  | .stepG _ => .step 0x30 0x10
  | .stepH _ => .step 0x30 0x20
  | .stepI _ => .step 0x30 0x30
  | .compress => .blank
  | .pushbyte _ => .blank
  | .feedbytes _ _ => .blank
  | .serialize => .blank

/-- A code fits a row. -/
def fits : Row → Code → Prop
  | .cmd mask pattern, .cmd w => w &&& mask = pattern
  | .step mask pattern, .step i => i &&& mask = pattern
  | .blank, .unencoded => True
  | _, _ => False

/-- The code of the instruction fits its row. -/
def Statement (i : Instr) : Prop := fits (row i) (encode i)

theorem init : Statement .init := by
  show cmdWord 1 0 0 0 &&& 0xFFFFFFFF = 0x10000000
  decide

theorem feed (len : BitVec 16) : Statement (.feed len) := by
  show cmdWord 2 0 0 len &&& 0xFFFF0000 = 0x20000000
  apply BitVec.eq_of_getLsbD_eq
  intro j hj
  simp only [cmdWord, BitVec.getLsbD_and, BitVec.getLsbD_append]
  interval_cases j <;> simp

theorem fill (value : Byte) (count : BitVec 16) : Statement (.fill value count) := by
  show cmdWord 3 0 value count &&& 0xFF000000 = 0x30000000
  apply BitVec.eq_of_getLsbD_eq
  intro j hj
  simp only [cmdWord, BitVec.getLsbD_and, BitVec.getLsbD_append]
  interval_cases j <;> simp

theorem final : Statement .final := by
  show cmdWord 4 0 0 0 &&& 0xFFFFFFFF = 0x40000000
  decide

theorem stepF (j : BitVec 4) : Statement (.stepF j) := by
  show stepIndex 0 j &&& 0x30 = 0x00
  revert j; decide

theorem stepG (j : BitVec 4) : Statement (.stepG j) := by
  show stepIndex 1 j &&& 0x30 = 0x10
  revert j; decide

theorem stepH (j : BitVec 4) : Statement (.stepH j) := by
  show stepIndex 2 j &&& 0x30 = 0x20
  revert j; decide

theorem stepI (j : BitVec 4) : Statement (.stepI j) := by
  show stepIndex 3 j &&& 0x30 = 0x30
  revert j; decide

theorem compress : Statement .compress := trivial

theorem pushbyte (v : Byte) : Statement (.pushbyte v) := trivial

theorem feedbytes (n : BitVec 16) (src : ByteSrc) : Statement (.feedbytes n src) := trivial

theorem serialize : Statement .serialize := trivial

end Sys2Proof.Laws.RowPattern
end

