-- ==== Sys2Proof/Machine/Text.lean ====
section
/-! DEFINITION. The spec's two textual conventions, used by nothing in the hardware: the text of a digest (spec/30_encoding.md R74) and
a command written down as one line (R75). -/

namespace Sys2Proof.Machine

/-- One hexadecimal digit, letters in lower case (R74). -/
def hexDigit (n : BitVec 4) : Char :=
  ['0', '1', '2', '3', '4', '5', '6', '7', '8', '9', 'a', 'b', 'c', 'd', 'e', 'f'].getD n.toNat '0'

/-- Two digits of a byte, the high nibble first (R74). -/
def hexByte (b : Byte) : List Char := [hexDigit (b.extractLsb' 4 4), hexDigit (b.extractLsb' 0 4)]

/-- The conventional text of a digest: 32 hexadecimal digits, DG[0] first (R74). -/
def digestText (q : Quad) : String := String.ofList ((digestBytes q).flatMap hexByte)

/-- A payload as a list of hex bytes (R75). -/
def payloadText (payload : List Byte) : String :=
  String.intercalate " " (payload.map fun b => String.ofList (hexByte b))

/-- One command, with its payload, as a line of the spec's notation (R75); an instruction that the host cannot issue has none. -/
def commandLine (c : Instr × List Byte) : Option String :=
  match c.1 with
  | .init => some "INIT"
  | .feed len => some ("FEED " ++ len.toNat.repr ++ if c.2 = [] then "" else ", " ++ payloadText c.2)
  | .fill value count => some ("FILL " ++ value.toNat.repr ++ ", " ++ count.toNat.repr)
  | .final => some "FINAL"
  | .stepF _ => none
  | .stepG _ => none
  | .stepH _ => none
  | .stepI _ => none
  | .compress => none
  | .pushbyte _ => none
  | .feedbytes _ _ => none
  | .serialize => none

end Sys2Proof.Machine
end

