-- ==== Sys2Proof/Tests/Slice0.lean ====
section
/-! SUPPORT. Tests against the vectors of spec/95_test_vectors.md and the examples of the rules (named in each comment), and a witness
for the hypotheses of every obligation that has any. -/

namespace Sys2Proof.Tests

open Sys2Proof Sys2Proof.Machine

/-! ## Well-formedness and decoding -/

/-- R72: the length field has eight bytes. -/
theorem test_wf_refuses_ninth_length_byte :
    Instr.wf (.feedbytes 9 (.lengthField 0)) = false ∧ Instr.wf (.feedbytes 8 (.lengthField 0)) = true := by decide

/-- V-N1 to V-N9: the words written out from R61 to R65. -/
theorem test_decode_commands :
    decodeCmd 0b0001_0000_0000_0000_0000_0000_0000_0000 = .ok .init ∧
    decodeCmd 0b0010_0000_0000_0000_1111_1111_1111_1111 = .ok (.feed 65535) ∧
    decodeCmd 0b0011_0000_1111_1111_1111_1111_1111_1111 = .ok (.fill 0xFF 65535) ∧
    decodeCmd 0b0011_0000_1000_0000_0000_0000_0000_0000 = .ok (.fill 0x80 0) ∧
    decodeCmd 0b0100_0000_0000_0000_0000_0000_0000_0000 = .ok .final := by decide

/-- V-N10 to V-N20: the illegal words. -/
theorem test_decode_illegal :
    decodeCmd 0x00000000 = .error .opcode ∧ decodeCmd 0x10000001 = .error .len ∧ decodeCmd 0x11000000 = .error .rsv1 ∧
    decodeCmd 0x20010000 = .error .value ∧ decodeCmd 0x21000003 = .error .rsv1 ∧ decodeCmd 0x31610040 = .error .rsv1 ∧
    decodeCmd 0x40000001 = .error .len ∧ decodeCmd 0x40FF0000 = .error .value ∧ decodeCmd 0x50000000 = .error .opcode ∧
    decodeCmd 0xF0000000 = .error .opcode ∧ decodeCmd 0xFFFFFFFF = .error .rsv1 := by decide

/-- V-T1, V-T5, V-T6, V-T8, V-T9, V-T11, V-T12, V-T15: the bit patterns of the step index. -/
theorem test_decode_steps :
    decodeStep 0b000000 = .stepF 0 ∧ decodeStep 0b001111 = .stepF 15 ∧ decodeStep 0b010000 = .stepG 0 ∧
    decodeStep 0b011111 = .stepG 15 ∧ decodeStep 0b100000 = .stepH 0 ∧ decodeStep 0b101111 = .stepH 15 ∧
    decodeStep 0b110000 = .stepI 0 ∧ decodeStep 0b111111 = .stepI 15 := by decide

/-- R60, R77: PUSHBYTE, FEEDBYTES, COMPRESS and SERIALIZE have no code. -/
theorem test_unencoded :
    encode .compress = .unencoded ∧ encode (.pushbyte 0) = .unencoded ∧ encode (.feedbytes 1 .din) = .unencoded ∧
    encode .serialize = .unencoded ∧ decode .unencoded = .error .unencoded := by decide

/-- The host's numbering: a command word as it stands, a step index in one byte. -/
theorem test_decodeTableWord :
    decodeTableWord 32 0x30610040 = some (.fill 0x61 64) ∧ decodeTableWord 8 0x21 = some (.stepH 1) ∧
    decodeTableWord 6 0x3F = some (.stepI 15) ∧ decodeTableWord 8 0x40 = none ∧ decodeTableWord 32 0 = none := by decide

/-! ## Primitives and tables -/

/-- V-P1 to V-P9. -/
theorem test_rotl32 :
    rotl32 0x80000000 1 = 0x00000001 ∧ rotl32 0x00000001 31 = 0x80000000 ∧ rotl32 0x12345678 4 = 0x23456781 ∧
    rotl32 0x12345678 16 = 0x56781234 ∧ rotl32 0xD76AA4F7 7 = 0xB5527BEB ∧ rotl32 0x89ABCDEF 21 = 0xBDF13579 := by decide

/-- V-P18, V-P20 and V-P22. -/
theorem test_little_endian :
    leWord 0x61 0x62 0x63 0x80 = 0x80636261 ∧ leBytes 4 (0xD98C1DD4 : Word) = [0xD4, 0x1D, 0x8C, 0xD9] ∧
    leBytes 8 (0x0123456789ABCDEF : BitVec 64) = [0xEF, 0xCD, 0xAB, 0x89, 0x67, 0x45, 0x23, 0x01] := by decide

/-- V-A10: all eight rows of the truth table in every nibble. -/
theorem test_aux :
    auxF 0x0F0F0F0F 0x33333333 0x55555555 = 0x53535353 ∧ auxG 0x0F0F0F0F 0x33333333 0x55555555 = 0x27272727 ∧
    auxH 0x0F0F0F0F 0x33333333 0x55555555 = 0x69696969 ∧ auxI 0x0F0F0F0F 0x33333333 0x55555555 = 0x9C9C9C9C := by decide

/-- V-T2, V-T7, V-T10, V-T14, and the sums of spec/95_test_vectors.md section 2.3. -/
theorem test_tables :
    (tableT 1 = 0xE8C7B756 ∧ tableS 1 = 12 ∧ tableK 1 = 1) ∧ (tableT 17 = 0xC040B340 ∧ tableS 17 = 9 ∧ tableK 17 = 6) ∧
    (tableT 33 = 0x8771F681 ∧ tableS 33 = 11 ∧ tableK 33 = 8) ∧ (tableT 62 = 0x2AD7D2BB ∧ tableS 62 = 15 ∧ tableK 62 = 2) ∧
    tTable.foldl (· + ·) 0 = 0x27F3A0BC ∧
    ((List.range 64).map (fun n => tableS (BitVec.ofNat 6 n))).sum = 848 := by decide +kernel

/-! ## Small states -/

/-- BUF holding these bytes from address `addr` on. -/
def bufOf (addr : Nat) : List Byte → Memory
  | [] => []
  | v :: rest => (addr, v) :: bufOf (addr + 1) rest

/-- After INIT from RESET (V-E1). -/
def opened : State := { State.reset.setChain iv with phase := .active }

/-- A message of copies of 0x61 is open (V-E7, section 2.8). -/
def holding (n : Nat) : State :=
  { opened with
    A := (chainOf (List.replicate n 0x61)).a
    B := (chainOf (List.replicate n 0x61)).b
    C := (chainOf (List.replicate n 0x61)).c
    D := (chainOf (List.replicate n 0x61)).d
    comps := n / 64
    cnt := BitVec.ofNat 64 n
    off := ⟨n % 64, by omega⟩
    buf := bufOf 0 (List.replicate (n % 64) 0x61) }

/-- "abc" has been fed after INIT (V-E2). -/
def abc : State := { opened with cnt := 3, off := 3, buf := bufOf 0 [0x61, 0x62, 0x63] }

/-- FINAL has completed for the empty message (V-F1). -/
def done : State :=
  { State.reset with A := 0xD98C1DD4, B := 0x04B2008F, C := 0x980980E9, D := 0x7E42F8EC, cnt := 64, comps := 1, phase := .done }

/-- A fault has been taken after reset (R154). -/
def faulted : State := { State.reset with phase := .faulted, err := true, errcode := .illegalCmd }

/-- A FEED of which `left` payload bytes are missing (R194). -/
def waiting (left : Nat) : State := { opened with cnt := BitVec.ofNat 64 left, transfer := some (.push left) }

/-- The working registers, and X[0] = 0x00000080, X[1] = X[5] = 0: the block of the empty message as far as the steps of R96 to
R99 read it. -/
def stepState (a b c d : Word) : State :=
  { State.reset with
    a := a, b := b, c := c, d := d
    buf := bufOf 0 [0x80, 0, 0, 0, 0, 0, 0, 0] ++ bufOf 20 [0, 0, 0, 0] }

/-- The outcome is a next state of which `p` holds. -/
def next (o : Host.Outcome State Fault Refusal) (p : State → Bool) : Bool :=
  match o with
  | .next t => p t
  | .fault _ => false
  | .refused _ => false

/-! ## One step -/

/-- The example of R96. -/
theorem test_step_f :
    next (exec (.stepF 0) (stepState 0x67452301 0xEFCDAB89 0x98BADCFE 0x10325476))
      (fun t => t.work == ⟨0x10325476, 0xA5202774, 0xEFCDAB89, 0x98BADCFE⟩ && t.i == 1) = true := by decide +kernel

/-- The example of R97. -/
theorem test_step_g :
    next (exec (.stepG 0) (stepState 0xF56C7CF1 0xD6819C6A 0x5AA53F75 0x374943A7))
      (fun t => t.work == ⟨0x374943A7, 0x1C7D7513, 0xD6819C6A, 0x5AA53F75⟩ && t.i == 17) = true := by decide +kernel

/-- The example of R98. -/
theorem test_step_h :
    next (exec (.stepH 0) (stepState 0x13707036 0xA2205F1F 0x1C31C384 0xAE7813DB))
      (fun t => t.work == ⟨0xAE7813DB, 0xDF63EAA1, 0xA2205F1F, 0x1C31C384⟩ && t.i == 33) = true := by decide +kernel

/-- The example of R99. -/
theorem test_step_i :
    next (exec (.stepI 0) (stepState 0x3F55EDFD 0xCA7D2DBD 0x68D84EA2 0x22A31F54))
      (fun t => t.work == ⟨0x22A31F54, 0x93AA2577, 0xCA7D2DBD, 0x68D84EA2⟩ && t.i == 49) = true := by decide +kernel

/-- V-C1, the example of R100. -/
theorem test_compress_empty :
    next (exec .compress { opened with off := 64, buf := bufOf 0 (0x80 :: List.replicate 63 0x00) })
      (fun t => t.chain == ⟨0xD98C1DD4, 0x04B2008F, 0x980980E9, 0x7E42F8EC⟩ && t.off == 0) = true := by decide +kernel

/-- V-C4: every addition carries. -/
theorem test_compress_all_ones :
    next (exec .compress { (opened.setChain ⟨0xFFFFFFFF, 0xFFFFFFFF, 0xFFFFFFFF, 0xFFFFFFFF⟩) with
      off := 64, buf := bufOf 0 (List.replicate 64 0xFF) })
      (fun t => t.chain == ⟨0x6CBA9129, 0x29FFD12A, 0x8B9BB7D3, 0xA9A0A3C1⟩) = true := by decide +kernel

/-- V-E1, and V-E14: BUF keeps the abandoned message's bytes. -/
theorem test_init :
    next (exec .init State.reset) (fun t => t.chain == iv && t.cnt == 0 && t.off == 0 && t.status == 0x01) = true ∧
    next (exec .init abc) (fun t => t.chain == iv && t.cnt == 0 && t.off == 0 && t.buf.read 2 == some 0x63) = true := by decide

/-- V-E8: the PUSHBYTE that makes OFF = 64 compresses at once, and does not write CNT. -/
theorem test_pushbyte_fills :
    next (exec (.pushbyte 0x61) (holding 63))
      (fun t => t.chain == ⟨0x89D4FF56, 0x125CD962, 0x69CADE33, 0x0033E325⟩ && t.off == 0 && t.cnt == 63) = true := by
  decide +kernel

/-- R41: with OFF = 64 there is no address to store at. -/
theorem test_pushbyte_stops : exec (.pushbyte 0) { opened with off := 64 } = .fault .bufferAddress := rfl

/-- V-E11: a transfer across the block boundary. -/
theorem test_feedbytes_straddles :
    next (exec (.feedbytes 10 .din) { holding 60 with din := List.replicate 10 0x61 })
      (fun t => t.chain == ⟨0x89D4FF56, 0x125CD962, 0x69CADE33, 0x0033E325⟩ && t.cnt == 70 && t.off == 6 &&
        t.buf.read 5 == some 0x61) = true := by decide +kernel

/-- R72: the length field runs out. -/
theorem test_feedbytes_stops : exec (.feedbytes 9 (.lengthField 0)) opened = .fault .lengthFieldExhausted := rfl

/-- V-E2, the example of R114. -/
theorem test_feed :
    next (exec (.feed 3) { opened with din := [0x61, 0x62, 0x63] })
      (fun t => t.chain == iv && t.cnt == 3 && t.off == 3 && t.buf == bufOf 0 [0x61, 0x62, 0x63] && t.din == []) = true := by
  decide

/-- V-E9, the example of R117. -/
theorem test_fill :
    next (exec (.fill 0x61 64) opened)
      (fun t => t.chain == ⟨0x89D4FF56, 0x125CD962, 0x69CADE33, 0x0033E325⟩ && t.cnt == 64 && t.off == 0) = true := by
  decide +kernel

/-- Program P8, command 4: FEED after FINAL discards its payload and faults; STATUS is 0x37. -/
theorem test_feed_after_final :
    next (exec (.feed 1) { done with din := [0x64] }) (fun t => t.status == 0x37 && t.din == [] && t.buf == []) = true := by decide

/-- The example of R131: "abc". -/
theorem test_final_abc :
    next (exec .final abc) (fun t =>
      t.chain == ⟨0x98500190, 0xB04FD23C, 0x7D3F96D6, 0x727FE128⟩ && t.cnt == 64 && t.off == 0 && t.status == 0x0A) = true := by
  decide +kernel

/-- V-F7: 56 bytes take two compressions. -/
theorem test_final_56 :
    next (exec .final (holding 56)) (fun t =>
      t.chain == ⟨0xC78A0C3B, 0xB028F803, 0x70196C4C, 0x1872D106⟩ && t.cnt == 128 && t.comps == 2) = true := by decide +kernel

/-- The example of R136. -/
theorem test_serialize :
    next (exec .serialize done) (fun t => t == done) = true ∧
    digestBytes done.chain =
      [0xD4, 0x1D, 0x8C, 0xD9, 0x8F, 0x00, 0xB2, 0x04, 0xE9, 0x80, 0x09, 0x98, 0xEC, 0xF8, 0x42, 0x7E] := by decide

/-- R26: the step with index 63 closes the compression. -/
theorem test_micro_step_closes :
    next (step { stepState 1 2 3 4 with i := 63, compressing := true, off := 64 })
      (fun t => t.compressing == false && t.off == 0 && t.A == 4 && t.C == 2 && t.D == 3) = true := by decide +kernel

/-- R66, R154: an all-zero word faults with code 1; STATUS is 0x17. -/
theorem test_illegal_word :
    next (step { State.reset with cmd := [0], din := [5] }) (fun t => t.status == 0x17 && t.din == [5] && t.cmd == []) = true := by
  decide

/-- R157, R158: a second fault keeps the first code, and INIT keeps the record (STATUS 0x35 as in program P8, command 6). -/
theorem test_sticky_record :
    next (exec .final { faulted with errcode := .feedAfterFinal }) (fun t => t.status == 0x37) = true ∧
    next (exec .init { faulted with errcode := .feedAfterFinal }) (fun t => t.status == 0x35) = true := by decide

/-- R180: RESET in the middle of a FEED. -/
theorem test_reset_in_a_feed :
    next (step (hostReset { waiting 3 with din := [1], cmd := [0x10000000] }))
      (fun t => t.status == 0x00 && t.din == [] && t.transfer == none && t.cmd == [0x10000000]) = true := by decide

/-- withFetchWord: the very next step after reset runs INIT, or a step micro-operation. -/
theorem test_withFetchWord :
    next (step (State.reset.withFetchWord 32 0x10000000)) (fun t => t.phase == .active) = true ∧
    next (step (State.reset.withFetchWord 8 0x21)) (fun t => t.i == 0x22) = true := by decide

/-- V-S2, the source's own vector, through the closed form of R143 and the text of R74. -/
theorem test_digest_text : digestText (md5Chain [0x61, 0x62, 0x63]) = "900150983cd24fb0d6963f7d28e17f72" := by decide +kernel

/-- V-N2, V-N6 and the notation of R75. -/
theorem test_command_lines :
    (commandLine (.feed 0, []) = some "FEED 0" ∧ commandLine (.fill 0x61 64, []) = some "FILL 97, 64") ∧
    commandLine (.feed 3, [0x61, 0x62, 0x63]) = some "FEED 3, 61 62 63" ∧ commandLine (.compress, []) = none := by decide +kernel

/-! ## Witnesses: the hypotheses of each obligation, met together -/

/-- DecodeOfEncode and EncodeOfDecode. -/
theorem witness_codes :
    encode (.fill 0xFF 65535) ≠ .unencoded ∧ encode (.stepI 15) ≠ .unencoded ∧
    decode (.cmd 0x2000FFFF) = .ok (.feed 65535) ∧ decode (.step 0) = .ok (.stepF 0) := by decide

/-- IllegalWordsFault, LegalityByPhase (illegal words), one for each way of being illegal. -/
theorem witness_illegal_word (w : Word) (h : w ∈ [0x00000000, 0x50000000, 0x1F000000, 0x40010000, 0x10000001]) :
    Ready { State.reset with cmd := [w] } ∧ ∃ why, decodeCmd w = .error why := by
  simp only [List.mem_cons, List.not_mem_nil, or_false] at h
  rcases h with rfl | rfl | rfl | rfl | rfl <;> exact ⟨⟨rfl, rfl, rfl⟩, _, rfl⟩

/-- StepIndexSelects: the first and the last index of each round. -/
theorem witness_step_indices :
    (0 : BitVec 6).toNat / 16 = 0 ∧ (15 : BitVec 6).toNat / 16 = 0 ∧ (16 : BitVec 6).toNat / 16 = 1 ∧
    (31 : BitVec 6).toNat / 16 = 1 ∧ (32 : BitVec 6).toNat / 16 = 2 ∧ (47 : BitVec 6).toNat / 16 = 2 ∧
    (48 : BitVec 6).toNat / 16 = 3 ∧ (63 : BitVec 6).toNat / 16 = 3 := by decide

/-- RotationReentersBits and FunctionsHAndI: the bounds. -/
theorem witness_rotation : (0 < 1 ∧ 1 < 32 ∧ 0 < 32) ∧ (0 < 31 ∧ 31 < 32) := by decide

/-- LittleEndianOrder: a block up to its length field. -/
theorem witness_block_front : (List.replicate 56 (0 : Byte)).length = 56 := by decide

/-- BitLengthOfCount: two counts that differ in the bits that are lost. -/
theorem witness_lost_bits :
    (0xE000000000000003 : BitVec 64).extractLsb' 0 61 = (0x3 : BitVec 64).extractLsb' 0 61 := by decide

/-- SixtyFourMicroOperationsAreCompress, WaitingChangesNothing (nothing issued), StepRunsTheCommand, ComputeGivesTheDigest,
InitOpensTheEmptyMessage: the state after reset. -/
theorem witness_reset : Ready State.reset ∧ State.reset.cmd = [] ∧ State.reset.din = [] := ⟨⟨rfl, rfl, rfl⟩, rfl, rfl⟩

/-- PushByteStores and MicroOperationsStopOutOfRange: each range of OFF at its bounds, and a ninth byte. -/
theorem witness_pushbyte_offsets :
    opened.off.val < 63 ∧ ({ opened with off := 62 } : State).off.val < 63 ∧ (holding 63).off.val = 63 ∧
    ({ opened with off := 64 } : State).off.val = 64 ∧ 8 < (9 : BitVec 16).toNat := by decide

/-- FeedBytesMoves: each source, OFF = 63, and n at its bound. -/
theorem witness_feedbytes :
    (holding 63).off.val ≤ 63 ∧ (holding 63).transfer = none ∧ ByteSrc.supplies 65535 .din = true ∧
    (65535 : BitVec 16).toNat ≤ ({ holding 63 with din := List.replicate 65535 0 } : State).din.length ∧
    ByteSrc.supplies 65535 (.const 0) = true ∧ ByteSrc.supplies 8 (.lengthField 0) = true ∧
    ByteSrc.lengthField 0 ≠ .din := by
  refine ⟨by decide, rfl, rfl, ?_, rfl, rfl, by decide⟩
  show (65535 : BitVec 16).toNat ≤ (List.replicate 65535 (0 : Byte)).length
  rw [List.length_replicate]
  decide

/-- FullBufferIsCompressedFirst. -/
theorem witness_full_buffer :
    ({ opened with off := 64 } : State).off.val = 64 ∧ (1 : BitVec 16) ≠ 0 ∧ ({ opened with off := 64 } : State).phase = .active := by
  decide

/-- FeedMovesThePayload, FillMovesTheCopies, FinalFeedsTheTrailer, FillIsFeedOfCopies: OFF at both bounds. -/
theorem witness_active :
    (opened.phase = .active ∧ opened.off.val = 0 ∧ opened.transfer = none) ∧
    ((holding 63).phase = .active ∧ (holding 63).off.val ≤ 63 ∧ (holding 63).transfer = none) ∧
    (65535 : BitVec 16).toNat ≤ ({ opened with din := List.replicate 65535 0 } : State).din.length := by
  refine ⟨by decide, by decide, ?_⟩
  show (65535 : BitVec 16).toNat ≤ (List.replicate 65535 (0 : Byte)).length
  rw [List.length_replicate]
  decide

/-- ZeroLengthIsNoOp, LegalityByPhase: a state in each phase, with a payload at the bound. -/
theorem witness_phases :
    opened.phase = .active ∧ State.reset.phase = .idle ∧ done.phase = .done ∧ faulted.phase = .faulted ∧
    (2 : BitVec 16).toNat ≤ ({ done with din := [1, 2] } : State).din.length ∧
    (0 : BitVec 16).toNat ≤ faulted.din.length := by decide

/-- TwoFeedsAreOne: the sum at its bound. -/
theorem witness_two_feeds :
    (1 : BitVec 16).toNat + (65534 : BitVec 16).toNat < 2 ^ 16 ∧
    (1 : BitVec 16).toNat + (65534 : BitVec 16).toNat ≤ ({ opened with din := List.replicate 65535 7 } : State).din.length := by
  refine ⟨by decide, ?_⟩
  show (1 : BitVec 16).toNat + (65534 : BitVec 16).toNat ≤ (List.replicate 65535 (7 : Byte)).length
  rw [List.length_replicate]
  decide

/-- LatePayloadMakesNoDifference: in phase ACTIVE and in phase DONE, the late bytes just enough. -/
theorem witness_late_payload :
    Ready { opened with din := [1] } ∧ ({ opened with din := [1] } : State).din.length < (3 : BitVec 16).toNat ∧
    (3 : BitVec 16).toNat ≤ ({ opened with din := [1] } : State).din.length + ([2, 3] : List Byte).length ∧
    Ready done ∧ done.phase ≠ .active ∧ done.din.length < (1 : BitVec 16).toNat ∧
    (1 : BitVec 16).toNat ≤ done.din.length + ([2] : List Byte).length := by
  refine ⟨⟨rfl, rfl, rfl⟩, by decide, by decide, ⟨rfl, rfl, rfl⟩, by decide, by decide, by decide⟩

/-- WaitingChangesNothing: a FEED that holds, in phase ACTIVE and outside it, with one byte missing. -/
theorem witness_waiting :
    (waiting 1).resetIn = false ∧ (waiting 1).compressing = false ∧ (waiting 1).din = [] ∧ (waiting 1).transfer = some (.push 1) ∧
    ({ done with transfer := some (.discard 1) } : State).transfer = some (.discard 1) := by decide

/-- The states `holding n` hold the messages of spec/95_test_vectors.md section 2.8. -/
theorem witness_holds_0 : Holds [] opened := ⟨rfl, rfl, rfl, rfl, rfl, by decide, rfl⟩

theorem witness_holds_55 : Holds (List.replicate 55 0x61) (holding 55) :=
  ⟨rfl, rfl, rfl, rfl, by decide, by decide +kernel, by decide⟩

theorem witness_holds_56 : Holds (List.replicate 56 0x61) (holding 56) :=
  ⟨rfl, rfl, rfl, rfl, by decide, by decide +kernel, by decide⟩

theorem witness_holds_63 : Holds (List.replicate 63 0x61) (holding 63) :=
  ⟨rfl, rfl, rfl, rfl, by decide, by decide +kernel, by decide⟩

/-- OneExtraBlockAfterFullBlocks: a message of one whole block. -/
theorem witness_holds_64 :
    Holds (List.replicate 64 0x61) (holding 64) ∧ (List.replicate 64 (0x61 : Byte)).length = 64 :=
  ⟨⟨rfl, rfl, rfl, rfl, by decide, by decide, by decide⟩, by decide⟩

/-- FeedExtendsTheMessage: a payload on DIN, with more behind it. -/
theorem witness_payload :
    ({ opened with din := [0x61, 0x62, 0x63] } : State).din = [0x61, 0x62] ++ [0x63] ∧
    ([0x61, 0x62] : List Byte).length = (2 : BitVec 16).toNat := by decide

/-- StateAfterFinal: a length below the wrap. -/
theorem witness_no_wrap : (List.replicate 64 (0x61 : Byte)).length + 128 < 2 ^ 64 := by decide

/-- FinalGivesTheDigest, ChunkSizeIndependence: INIT, then FEED 0, FILL 0x61, 2 and FEED 1, "a", against INIT and FILL 0x61, 3. -/
theorem witness_fed :
    ∃ s s', FedSinceInit [0x61, 0x61, 0x61] s ∧ FedSinceInit [0x61, 0x61, 0x61] s' := by
  have h0 : FedSinceInit [] opened := .init State.reset opened rfl rfl rfl
  have hf : FedSinceInit ([] ++ List.replicate 3 0x61) _ := .fill [] 0x61 3 opened _ h0 rfl
  have h1 := FedSinceInit.host [] opened [] [0x61] h0
  have h2 : FedSinceInit ([] ++ []) _ := .feed [] [] [0x61] 0 _ _ h1 rfl rfl rfl
  have h3 : FedSinceInit ([] ++ [] ++ List.replicate 2 0x61) _ := .fill _ 0x61 2 _ _ h2 rfl
  have h4 : FedSinceInit ([] ++ [] ++ List.replicate 2 0x61 ++ [0x61]) _ := .feed _ [0x61] [] 1 _ _ h3 rfl rfl rfl
  exact ⟨_, _, hf, h4⟩

/-- The invariant holds in each phase, and while a FEED holds. -/
theorem witness_inv :
    Inv State.reset ∧ Inv opened ∧ Inv (waiting 1) ∧ Inv done ∧ Inv faulted ∧ Inv { done with transfer := some (.discard 1) } := by
  refine ⟨?_, ?_, ?_, ?_, ?_, ?_⟩ <;> constructor <;>
    first | decide | (intro left h; cases h <;> decide)

/-- InvKeptByEveryStep: a step from a state that meets the invariant, for each kind of action. -/
theorem witness_inv_step :
    (∃ t, step State.reset = .next t) ∧ (∃ t, step { opened with cmd := [0x40000000] } = .next t) ∧
    (∃ t, step { waiting 1 with din := [7] } = .next t) ∧ (∃ t, step { faulted with cmd := [0] } = .next t) ∧
    (∃ t, step { done with resetIn := true } = .next t) := ⟨⟨_, rfl⟩, ⟨_, rfl⟩, ⟨_, rfl⟩, ⟨_, rfl⟩, ⟨_, rfl⟩⟩

/-- FaultRecordIsSticky: a step that is no RESET, with ERR = 1. -/
theorem witness_sticky :
    (∃ t, step { faulted with cmd := [0x10000000] } = .next t) ∧ ({ faulted with cmd := [0x10000000] } : State).err = true ∧
    ({ faulted with cmd := [0x10000000] } : State).resetIn = false := ⟨⟨_, rfl⟩, rfl, rfl⟩

/-- OnlyMisuseFaults: an illegal word, and a FINAL before any INIT. -/
theorem witness_misuse :
    (∃ t, step { State.reset with cmd := [0] } = .next t ∧ t.err = true ∧ t.errcode = .illegalCmd) ∧
    (∃ t, step { State.reset with cmd := [0x40000000] } = .next t ∧ t.err = true ∧ t.errcode = .notInitialised) ∧
    Inv { State.reset with cmd := [0] } ∧ State.reset.err = false := by
  refine ⟨⟨_, rfl, rfl, rfl⟩, ⟨_, rfl, rfl, rfl⟩, ?_, rfl⟩
  constructor <;> first | decide | (intro left h; cases h)

/-- PhasesAreEntered: a step into each phase from another. -/
theorem witness_phase_changes :
    (∃ t, step { done with resetIn := true } = .next t ∧ t.phase = .idle) ∧
    (∃ t, step { State.reset with cmd := [0x10000000] } = .next t ∧ t.phase = .active) ∧
    (∃ t, step { opened with cmd := [0x40000000] } = .next t ∧ t.phase = .done) ∧
    (∃ t, step { done with cmd := [0x40000000] } = .next t ∧ t.phase = .faulted) :=
  ⟨⟨_, rfl, rfl⟩, ⟨_, rfl, rfl⟩, ⟨_, rfl, rfl⟩, ⟨_, rfl, rfl⟩⟩

/-- ChainChangesOnlyByInitCompressOrFault: an instruction that answers a next state, one of them by taking a fault. -/
theorem witness_exec_next : (∃ t, exec (.fill 0 1) opened = .next t) ∧ ∃ t, exec .final done = .next t := ⟨⟨_, rfl⟩, ⟨_, rfl⟩⟩

/-- DigestIsImmutable: a step in phase DONE that stays there (a FEED that holds outside phase ACTIVE). -/
theorem witness_done_step :
    done.compressing = false ∧ done.transfer = none ∧
    ∃ t, step { done with cmd := [0x20000001] } = .next t ∧ t.phase = .done := ⟨rfl, rfl, _, rfl, rfl⟩

/-- ResetAtAnyMoment; StatusLayout and HostRegisters; StepRunsTheMicroOperation with both kinds of index. -/
theorem witness_ports :
    (hostReset (waiting 1)).resetIn = true ∧ done.busy = false ∧ done.phase = .done ∧ 5 ≤ 5 ∧
    ({ opened with i := 0, compressing := true } : State).compressing = true ∧
    ({ opened with i := 63, compressing := true } : State).i = 63 := by decide

/-- StatusLayout: a state with each ERRCODE, and one between commands with none issued and no RESET; FinalGivesTheDigest: CMD empty. -/
theorem witness_status :
    State.reset.errcode = .none ∧ ({ faulted with errcode := .illegalCmd } : State).errcode = .illegalCmd ∧
    ({ faulted with errcode := .notInitialised } : State).errcode = .notInitialised ∧
    ({ faulted with errcode := .feedAfterFinal } : State).errcode = .feedAfterFinal ∧
    ({ faulted with errcode := .finalAfterFinal } : State).errcode = .finalAfterFinal ∧
    faulted.busy = false ∧ faulted.cmd = [] ∧ Inv State.reset ∧ State.reset.err = false ∧ faulted.resetIn = false ∧
    opened.cmd = [] ∧ opened.resetIn = false := by
  refine ⟨rfl, rfl, rfl, rfl, rfl, rfl, rfl, witness_inv.1, rfl, rfl, rfl, rfl⟩

/-- StepRunsTheCommand: each command, as the word and as the instruction. -/
theorem witness_commands :
    decode (.cmd 0x10000000) = .ok .init ∧ decode (.cmd 0x20000003) = .ok (.feed 3) ∧
    decode (.cmd 0x30610040) = .ok (.fill 0x61 64) ∧ decode (.cmd 0x40000000) = .ok .final := by decide

/-- StaleBytesAreNeverRead: two states that differ in a stale byte, under a FILL that answers a next state. -/
theorem witness_stale :
    SameButStale abc { abc with buf := bufOf 0 [0x61, 0x62, 0x63, 0xFF] } ∧ abc.off.val ≤ 63 ∧
    ∃ t, exec (.fill 0 61) abc = .next t := ⟨⟨rfl, by decide⟩, by decide, _, rfl⟩

/-- InstancesAreIndependent: two instances, one of which makes a step. -/
theorem witness_instances :
    stepInstance 0 [{ State.reset with cmd := [0x10000000] }, done] = .next [opened, done] := by rfl

end Sys2Proof.Tests
end

section
/-! The primitives of R8: rotation bit by bit, the bytes of a word, and the length field of a block. -/

namespace Sys2Proof.Machine

/-! ## Rotation -/

/-- R8. A rotation by 0 brings no bit round. -/
@[simp] theorem rotl32_zero (x : Word) : rotl32 x 0 = x := by
  simp [rotl32, BitVec.ushiftRight_eq_zero]

/-- Below the word's width `rotl32` is the library's rotation. -/
theorem rotl32_eq_rotateLeft (x : Word) (s : Nat) (h : s < 32) : rotl32 x s = x.rotateLeft s := by
  rw [rotl32, BitVec.rotateLeft_def, Nat.mod_eq_of_lt h]

/-- R8. Bit n of the rotation is bit (n - s) mod 32 of the word: the low s bits are its top ones. -/
theorem getLsbD_rotl32 (x : Word) (s n : Nat) (hs : s < 32) (hn : n < 32) :
    (rotl32 x s).getLsbD n = x.getLsbD ((n + (32 - s)) % 32) := by
  rw [rotl32_eq_rotateLeft x s hs, BitVec.getLsbD_rotateLeft, Nat.mod_eq_of_lt hs]
  by_cases hns : n < s
  · have hi : (n + (32 - s)) % 32 = 32 - s + n := by omega
    simp [hns, hi]
  · have hi : (n + (32 - s)) % 32 = n - s := by omega
    simp [hns, hn, hi]

/-- Settles O10: the rotation by 0, and any other rotation below the word's width bit by bit. -/
theorem rotationReentersBits : Obligations.RotationReentersBits :=
  fun x => ⟨rotl32_zero x, fun s _ hs n hn => getLsbD_rotl32 x s n hs hn⟩

/-! ## The bytes of a word -/

/-- A byte appended below a vector is added to 2^8 times its value. -/
theorem toNat_append_byte {w : Nat} (v : BitVec w) (b : Byte) : (v ++ b).toNat = 2 ^ 8 * v.toNat + b.toNat := by
  rw [BitVec.toNat_append, ← Nat.shiftLeft_add_eq_or_of_lt b.isLt, Nat.shiftLeft_eq, Nat.mul_comm]

/-- R44. The value of a word is the weighted sum of its bytes. -/
theorem toNat_leWord (b0 b1 b2 b3 : Byte) :
    (leWord b0 b1 b2 b3).toNat = b0.toNat + 2 ^ 8 * b1.toNat + 2 ^ 16 * b2.toNat + 2 ^ 24 * b3.toNat := by
  simp only [leWord, toNat_append_byte]
  omega

/-- R8. The bytes of a word are the bytes it was made of: byte m is the digit of weight 2^8m in the weighted sum. -/
theorem leBytes_leWord (b0 b1 b2 b3 : Byte) : leBytes 4 (leWord b0 b1 b2 b3) = [b0, b1, b2, b3] := by
  have hbytes (v : Word) : leBytes 4 v = [v.extractLsb' 0 8, v.extractLsb' 8 8, v.extractLsb' 16 8, v.extractLsb' 24 8] :=
    rfl
  simp only [hbytes, List.cons.injEq, and_true, BitVec.toNat_eq, BitVec.extractLsb'_toNat, Nat.shiftRight_eq_div_pow,
    toNat_leWord]
  omega

/-- R44. Four consecutive bytes of a vector make the 32 bits at their place. -/
theorem leWord_extractLsb' {w : Nat} (v : BitVec w) (p : Nat) :
    leWord (v.extractLsb' p 8) (v.extractLsb' (p + 8) 8) (v.extractLsb' (p + 16) 8) (v.extractLsb' (p + 24) 8) =
      v.extractLsb' p 32 := by
  simp (disch := omega) only [leWord, BitVec.extractLsb'_append_extractLsb'_eq_extractLsb']

/-! ## The length field of a block -/

/-- R8. Byte m of a vector is its bits 8m + 7 to 8m. -/
theorem getD_leBytes {w : Nat} (n : Nat) (v : BitVec w) (m : Nat) (h : m < n) :
    (leBytes n v).getD m 0 = v.extractLsb' (8 * m) 8 := by
  simp [leBytes, h]

/-- R44. Behind a front of j words, word j + k of a block is word k of the rest. -/
theorem blockWord_append (front rest : List Byte) (j k : Nat) (h : front.length = 4 * j) :
    blockWord (front ++ rest) (j + k) = blockWord rest k := by
  have byte_append (m : Nat) : (front ++ rest).getD (4 * j + m) 0 = rest.getD m 0 := by
    rw [List.getD_append_right _ _ _ _ (by omega), h, Nat.add_sub_cancel_left]
  simp only [blockWord, Nat.mul_add, Nat.add_assoc, byte_append]

/-- R44, R72. Word k of the bytes of a vector is its bits 32k + 31 to 32k. -/
theorem blockWord_leBytes {w : Nat} (n : Nat) (v : BitVec w) (k : Nat) (h : 4 * k + 3 < n) :
    blockWord (leBytes n v) k = v.extractLsb' (32 * k) 32 := by
  have byte_place (m : Nat) (hm : m ≤ 3) : (leBytes n v).getD (4 * k + m) 0 = v.extractLsb' (32 * k + 8 * m) 8 := by
    rw [getD_leBytes n v _ (by omega)]
    congr 1
    omega
  rw [blockWord, ← leWord_extractLsb', byte_place 1 (by decide), byte_place 2 (by decide), byte_place 3 (by decide)]
  exact congrArg (leWord · _ _ _) (byte_place 0 (by decide))

/-- Settles O11: a word against its four bytes, and the length field as the two words behind a front of fourteen. -/
theorem littleEndianOrder : Obligations.LittleEndianOrder := by
  refine ⟨fun b0 b1 b2 b3 => ⟨toNat_leWord b0 b1 b2 b3, leBytes_leWord b0 b1 b2 b3⟩, fun front bits h => ⟨?_, ?_⟩⟩
  · exact (blockWord_append front _ 14 0 h).trans (blockWord_leBytes 8 bits 0 (by decide))
  · exact (blockWord_append front _ 14 1 h).trans (blockWord_leBytes 8 bits 1 (by decide))

end Sys2Proof.Machine
end

section
/-! What each command can do: one inversion lemma each. -/

namespace Sys2Proof.Machine

/-! ## Each command -/

theorem exec_init_eq {s t : State} (h : exec .init s = .next t) :
    t = { s.setChain iv with cnt := 0, off := 0, phase := .active, comps := 0 } :=
  (Host.Outcome.next.inj h).symm

/-- FEED (R114) by its two cases. -/
theorem exec_feed_cases {len : BitVec 16} {s t : State} (h : exec (.feed len) s = .next t) :
    (s.phase = .active ∧ t = feedBytes len .din s) ∨ (s.phase ≠ .active ∧ t = pullDiscard len.toNat s) := by
  simp only [exec, execFeed] at h
  split at h
  next ha => exact .inl ⟨ha, (Host.Outcome.next.inj h).symm⟩
  next ha => exact .inr ⟨ha, (Host.Outcome.next.inj h).symm⟩

/-- FILL (R117) by its two cases. -/
theorem exec_fill_cases {v : Byte} {n : BitVec 16} {s t : State} (h : exec (.fill v n) s = .next t) :
    (s.phase = .active ∧ t = feedBytes n (.const v) s) ∨ (s.phase ≠ .active ∧ t = raiseFault (feedFault s.phase) s) := by
  simp only [exec, execFill] at h
  split at h
  next ha => exact .inl ⟨ha, (Host.Outcome.next.inj h).symm⟩
  next ha => exact .inr ⟨ha, (Host.Outcome.next.inj h).symm⟩

/-- FINAL (R131) by its two cases. -/
theorem exec_final_cases {s t : State} (h : exec .final s = .next t) :
    (s.phase = .active ∧ t = finalize s) ∨ (s.phase ≠ .active ∧ t = raiseFault (finalFault s.phase) s) := by
  simp only [exec, execFinal] at h
  split at h
  next ha => exact .inl ⟨ha, (Host.Outcome.next.inj h).symm⟩
  next ha => exact .inr ⟨ha, (Host.Outcome.next.inj h).symm⟩

end Sys2Proof.Machine
end

section
/-! FEED and FILL of bytes that are all there, as one operation (`State.fed`), and the message that a core holds after it. -/

namespace Sys2Proof

open Machine

/-! ## Feeding bytes -/

/-- What feeding does, OFF being at most 63: CNT counts the bytes, and they are pushed (R113). -/
theorem Machine.State.fed_pushed (s : State) (bytes : List Byte) (h : s.off.val ≤ 63) :
    Pushed bytes { s with cnt := s.cnt + BitVec.ofNat 64 bytes.length } (s.fed bytes) := by
  rw [← State.fed_eq_pushAll s bytes h]
  exact pushAll_pushed bytes _ h

/-- FEEDBYTES of copies of a byte feeds them (R113, R117). -/
theorem Machine.feedBytes_const_eq_fed (n : BitVec 16) (v : Byte) (s : State) (h : s.off.val ≤ 63) :
    feedBytes n (.const v) s = s.fed (List.replicate n.toNat v) := by
  have e := feedBytes_const_fed n.toNat v s h n.isLt
  rwa [BitVec.ofNat_toNat, BitVec.setWidth_eq] at e

/-- FEEDBYTES from DIN, the payload being all there, takes it and feeds it (R113, R114). -/
theorem Machine.feedBytes_din_eq_fed {n : BitVec 16} {s : State} {payload rest : List Byte} (h : s.off.val ≤ 63)
    (hheld : s.transfer = none) (hdin : s.din = payload ++ rest) (hlen : payload.length = n.toNat) :
    feedBytes n .din s = ({ s with din := rest } : State).fed payload := by
  by_cases hn : n = 0
  · subst hn
    obtain rfl : payload = [] := List.eq_nil_of_length_eq_zero hlen
    obtain rfl : s.din = rest := hdin
    simp [State.fed]
  · have hcount : s.count n = s.withFrame (s.cnt + n.setWidth 64) s.phase s.transfer s.cmd s.din := rfl
    have hrest : ({ s with din := rest } : State) = s.withFrame s.cnt s.phase s.transfer s.cmd rest := rfl
    have hall : ¬ s.din.length < n.toNat := by rw [hdin, List.length_append]; omega
    rw [feedBytes_din n s h hn, pullPush_eq, State.din_count, if_neg hall, hdin, ← hlen, List.take_left, List.drop_left,
      hcount, hrest, State.fed, pushAll_withFrame, pushAll_withFrame, hlen, BitVec.ofNat_toNat]
    simp only [State.withFrame, hheld]

/-! ## The message held -/

/-- While a message is held OFF is at most 63 (R35 item 1). -/
theorem Holds.offset_le {msg : List Byte} {s : State} (h : Holds msg s) : s.off.val ≤ 63 := by
  have := h.offset
  omega

/-- Feeding extends the message that the core holds (R35 item 4, R143). -/
theorem Holds.fed {msg : List Byte} {s : State} (h : Holds msg s) (bytes : List Byte) : Holds (msg ++ bytes) (s.fed bytes) := by
  have hp := s.fed_pushed bytes h.offset_le
  obtain ⟨hchain, hcnt, ho, hblocks, hpending, hheld⟩ := h.pushed (by rw [State.withFrame, ← h.boundary]) hp
  exact ⟨hp.phase.trans h.active, hheld, hchain, hcnt, ho, hpending, hblocks⟩

/-- Settles O35: a FEED whose payload is on DIN takes it from DIN and feeds it. -/
theorem feedExtendsTheMessage : Obligations.FeedExtendsTheMessage := by
  intro msg payload rest len s h hdin hlen
  have hoff := h.offset_le
  have hexec : exec (.feed len) s = .next (({ s with din := rest } : State).fed payload) := by
    rw [← feedBytes_din_eq_fed hoff h.boundary hdin hlen]
    exact if_pos h.active
  have hp := ({ s with din := rest } : State).fed_pushed payload hoff
  exact ⟨_, hexec, (h.host s.cmd rest).fed payload, hp.din, hp.err, hp.errcode, hp.cmd⟩

/-- Settles O36: a FILL feeds its copies. -/
theorem fillExtendsTheMessage : Obligations.FillExtendsTheMessage := by
  intro msg value count s h
  have hoff := h.offset_le
  have hexec : exec (.fill value count) s = .next (s.fed (List.replicate count.toNat value)) := by
    rw [← feedBytes_const_eq_fed count value s hoff]
    exact if_pos h.active
  have hp := s.fed_pushed (List.replicate count.toNat value) hoff
  exact ⟨_, hexec, h.fed _, hp.din, hp.err, hp.errcode, hp.cmd⟩

/-- Settles O34: INIT starts the message over. -/
theorem initOpensTheEmptyMessage : Obligations.InitOpensTheEmptyMessage := by
  intro s hheld
  refine ⟨_, rfl, ?_⟩
  constructor
  case boundary => exact hheld
  case pending => intro j hj; simp at hj
  all_goals rfl

end Sys2Proof
end

section
/-! The invariant of command boundaries, kept by every step. -/

namespace Sys2Proof

open Machine

/-! ## CNT against the bytes that have arrived -/

/-- An open message, CNT being `n` bytes ahead: it has counted, mod 2^64, 64 bytes per compression since INIT, the pending bytes
and `n` bytes that BUF has not yet received (R113). The rest is what the invariant says of phase ACTIVE. -/
structure OpenAhead (n : Nat) (s : State) : Prop where
  bufCanonical : s.buf.wf = true
  notCompressing : s.compressing = false
  errorCode : s.errcode = .none ↔ s.err = false
  active : s.phase = .active
  offset : s.off.val ≤ 63
  counted : s.cnt.toNat = (64 * s.comps + s.off.val + n) % 2 ^ 64

/-- Between commands CNT is ahead by the bytes still owed. -/
theorem Inv.openAhead {s : State} (h : Inv s) (ha : s.phase = .active) : OpenAhead s.owed s :=
  ⟨h.bufCanonical, h.notCompressing, h.errorCode, ha, h.activeOffset ha, h.counted (.inl ha)⟩

/-- An open message meets the invariant when a held FEED still wants exactly the bytes that CNT is ahead by. -/
theorem OpenAhead.inv {n : Nat} {s : State} (h : OpenAhead n s) (hn : n ≤ 65535)
    (hheld : s.transfer = if 0 < n then some (.push n) else none) : Inv s := by
  have hactive := h.active
  have howed : s.owed = n := by
    rw [State.owed, hheld]
    split <;> simp_all
  constructor
  case bufCanonical => exact h.bufCanonical
  case notCompressing => exact h.notCompressing
  case errorCode => exact h.errorCode
  case faultedSaysErr => simp [hactive]
  case pushHeld =>
    intro left hl
    rw [hheld] at hl
    split at hl
    · cases hl
      exact ⟨hactive, by omega, hn⟩
    · cases hl
  case discardHeld =>
    intro left hl
    rw [hheld] at hl
    split at hl <;> cases hl
  case activeOffset => exact fun _ => h.offset
  case doneOffset => simp [hactive]
  case counted => exact fun _ => howed ▸ h.counted

/-- A message that ends at the end of a block may be closed (R35 item 5, R135). -/
theorem OpenAhead.inv_done {s : State} (h : OpenAhead 0 s) (hoff : s.off.val = 0) (hheld : s.transfer = none) :
    Inv { s with phase := .done } := by
  constructor
  case bufCanonical => exact h.bufCanonical
  case notCompressing => exact h.notCompressing
  case errorCode => exact h.errorCode
  case doneOffset => exact fun _ => hoff
  case counted =>
    intro _
    simp [State.owed, hheld, h.counted]
  all_goals simp [hheld]

/-- Counting the bytes of a transfer puts CNT ahead by them (R113). -/
theorem OpenAhead.count {n : Nat} {s : State} (h : OpenAhead n s) (k : Nat) :
    OpenAhead (k + n) { s with cnt := s.cnt + BitVec.ofNat 64 k } := by
  refine ⟨h.bufCanonical, h.notCompressing, h.errorCode, h.active, h.offset, ?_⟩
  have := h.counted
  simp only [BitVec.toNat_add, BitVec.toNat_ofNat]
  omega

/-- Pushing bytes lets BUF catch up with CNT. -/
theorem OpenAhead.pushed {n : Nat} {bytes : List Byte} {s t : State} (h : OpenAhead (bytes.length + n) s) (hp : Pushed bytes s t) :
    OpenAhead n t := by
  refine ⟨hp.canonical h.bufCanonical, hp.settled h.notCompressing, ?_, hp.phase.trans h.active, hp.offset_le, ?_⟩
  · rw [hp.errcode, hp.err]
    exact h.errorCode
  · rw [hp.cnt, h.counted, hp.blocks, hp.offset]
    omega

/-- What the host has sent, and the transfer, do not matter to an open message. -/
theorem OpenAhead.host {n : Nat} {s : State} (h : OpenAhead n s) (x : Option Transfer) (cmd : List Word) (din : List Byte) :
    OpenAhead n { s with transfer := x, cmd := cmd, din := din } :=
  ⟨h.bufCanonical, h.notCompressing, h.errorCode, h.active, h.offset, h.counted⟩

theorem OpenAhead.fed {n : Nat} {s : State} (h : OpenAhead n s) (bytes : List Byte) : OpenAhead n (s.fed bytes) :=
  (h.count bytes.length).pushed (s.fed_pushed bytes h.offset)

/-- A FEED takes what DIN has of the `n` bytes that CNT is ahead by, and holds for the rest (R185). -/
theorem OpenAhead.inv_pullPush {n : Nat} {s : State} (h : OpenAhead n s) (hn : n ≤ 65535) : Inv (pullPush n s) := by
  have hp := pushAll_pushed (s.din.take n) s h.offset
  have htake : (s.din.take n).length + (n - s.din.length) = n := by rw [List.length_take]; omega
  have ht : OpenAhead (n - s.din.length) (pushAll (s.din.take n) s) := OpenAhead.pushed (by rwa [htake]) hp
  have hheld : (pullPush n s).transfer = if 0 < n - s.din.length then some (.push (n - s.din.length)) else none := by
    simp only [pullPush, Nat.sub_pos_iff_lt]
  refine OpenAhead.inv (n := n - s.din.length) ?_ (by omega) hheld
  rw [pullPush_eq, State.withFrame, ← hp.cnt, ← hp.phase]
  exact ht.host ..

/-! ## Faults and RESET -/

/-- After a fault the core meets the invariant: the record is consistent, no command is in progress, and nothing is said of the data
that R154 leaves without a value. -/
theorem inv_raiseFault {code : ErrCode} {s : State} (hcode : code ≠ .none) (hc : s.compressing = false)
    (he : s.errcode = .none ↔ s.err = false) : Inv (raiseFault code s) := by
  constructor
  case notCompressing => exact hc
  case errorCode =>
    rw [raiseFault_errcode, raiseFault_err]
    split <;> simp_all
  all_goals simp

/-- RESET leads to a state that meets the invariant (R180). -/
theorem inv_resetCore (s : State) : Inv (resetCore s) := by
  constructor <;> simp

/-- Settles O57: the registers after reset, one by one. -/
theorem invAtReset : Obligations.InvAtReset := by
  constructor <;> simp [State.reset]

/-! ## The commands and the held FEED -/

/-- The invariant does not depend on the words that wait on CMD. -/
theorem Inv.after_takeCommand {s : State} (h : Inv s) : Inv (takeCommand s) :=
  ⟨h.bufCanonical, h.notCompressing, h.errorCode, h.faultedSaysErr, h.pushHeld, h.discardHeld, h.activeOffset, h.doneOffset,
    h.counted⟩

/-- Outside phase ACTIVE nothing is owed: a FEED held there only discards. -/
theorem Inv.owed_eq_zero {s : State} (h : Inv s) (ha : s.phase ≠ .active) : s.owed = 0 := by
  cases ht : s.transfer with
  | none => simp [State.owed, ht]
  | some x =>
    cases x with
    | push left => exact absurd (h.pushHeld left ht).1 ha
    | discard left => simp [State.owed, ht]

/-- A FEED outside phase ACTIVE discards its payload, or what DIN has of it (R114, R194). -/
theorem Inv.after_pullDiscard {n : Nat} {s : State} (h : Inv s) (ha : s.phase ≠ .active) (hn : n ≤ 65535) :
    Inv (pullDiscard n s) := by
  obtain ⟨hlt, e⟩ | ⟨-, e⟩ := pullDiscard_cases n s
  · rw [e]
    refine ⟨h.bufCanonical, h.notCompressing, h.errorCode, h.faultedSaysErr, ?_, ?_, h.activeOffset, h.doneOffset, ?_⟩
    · intro left hl
      cases hl
    · intro left hl
      cases hl
      exact ⟨ha, by omega, by omega⟩
    · intro hd
      rw [h.counted hd, h.owed_eq_zero ha]
      rfl
  · rw [e]
    exact inv_raiseFault (feedFault_code ha).2 h.notCompressing h.errorCode

/-- A held FEED goes on (R185, R194). -/
theorem Inv.after_resumeTransfer {x : Transfer} {s : State} (h : Inv s) (hx : s.transfer = some x) : Inv (resumeTransfer x s) := by
  cases x with
  | push left =>
    obtain ⟨ha, -, hle⟩ := h.pushHeld left hx
    have howed : s.owed = left := by simp [State.owed, hx]
    exact (howed ▸ h.openAhead ha).inv_pullPush hle
  | discard left =>
    obtain ⟨ha, -, hle⟩ := h.discardHeld left hx
    exact h.after_pullDiscard ha hle

/-- The state between two commands of an open message. -/
theorem Inv.openAhead_zero {s : State} (h : Inv s) (ha : s.phase = .active) (ht : s.transfer = none) : OpenAhead 0 s := by
  have howed : s.owed = 0 := by simp [State.owed, ht]
  exact howed ▸ h.openAhead ha

theorem inv_of_exec_init {s t : State} (h : Inv s) (ht : s.transfer = none) (he : exec .init s = .next t) : Inv t := by
  have ho : OpenAhead 0 { s.setChain iv with cnt := 0, off := 0, phase := .active, comps := 0 } :=
    ⟨h.bufCanonical, h.notCompressing, h.errorCode, rfl, Nat.zero_le _, rfl⟩
  rw [exec_init_eq he]
  exact ho.inv (by decide) ht

theorem inv_of_exec_feed {len : BitVec 16} {s t : State} (h : Inv s) (ht : s.transfer = none)
    (he : exec (.feed len) s = .next t) : Inv t := by
  have hlen : len.toNat ≤ 65535 := by omega
  obtain ⟨ha, rfl⟩ | ⟨ha, rfl⟩ := exec_feed_cases he
  · have ho := h.openAhead_zero ha ht
    by_cases h0 : len = 0
    · subst h0; exact h
    · rw [feedBytes_din _ _ ho.offset h0, State.count, ← BitVec.ofNat_toNat]
      exact (ho.count len.toNat).inv_pullPush hlen
  · exact h.after_pullDiscard ha hlen

theorem inv_of_exec_fill {v : Byte} {n : BitVec 16} {s t : State} (h : Inv s) (ht : s.transfer = none)
    (he : exec (.fill v n) s = .next t) : Inv t := by
  obtain ⟨ha, rfl⟩ | ⟨ha, rfl⟩ := exec_fill_cases he
  · have ho := h.openAhead_zero ha ht
    rw [feedBytes_const_eq_fed _ _ _ ho.offset]
    exact (ho.fed _).inv (by decide) ((s.fed_pushed _ ho.offset).transfer.trans ht)
  · exact inv_raiseFault (feedFault_code ha).2 h.notCompressing h.errorCode

/-- The trailer ends at the end of a block (R134, R135). -/
theorem trailer_fills_block (s : State) (h : s.off.val ≤ 63) : (s.off.val + (trailer s).length) % 64 = 0 := by
  rw [trailer_length]
  obtain ⟨hp, hz⟩ | ⟨hp, hz⟩ := zeroCount_cases s.off.val <;> omega

theorem inv_of_exec_final {s t : State} (h : Inv s) (ht : s.transfer = none) (he : exec .final s = .next t) : Inv t := by
  obtain ⟨ha, e⟩ | ⟨ha, rfl⟩ := exec_final_cases he
  · have ho := h.openAhead_zero ha ht
    have hp := s.fed_pushed (trailer s) ho.offset
    rw [e, finalize_eq s ho.offset]
    exact (ho.fed (trailer s)).inv_done (hp.offset.trans (trailer_fills_block s ho.offset)) (hp.transfer.trans ht)
  · exact inv_raiseFault (finalFault_code ha).2 h.notCompressing h.errorCode

/-- Settles O58, by what a step can do: RESET, a held FEED, waiting, one of the four commands, an illegal word; the invariant shuts
out the step inside a compression. -/
theorem invKeptByEveryStep : Obligations.InvKeptByEveryStep := by
  intro s t h hstep
  obtain ⟨-, rfl⟩ | ⟨-, hc, -⟩ | ⟨-, -, x, hx, rfl⟩ | ⟨-, -, ht, ⟨-, rfl⟩ | ⟨op, -, he, hop⟩ | ⟨why, -, rfl⟩⟩ :=
    step_cases hstep
  · exact inv_resetCore s
  · simp [h.notCompressing] at hc
  · exact h.after_resumeTransfer hx
  · exact h
  · have hk := h.after_takeCommand
    obtain rfl | ⟨len, rfl⟩ | ⟨v, n, rfl⟩ | rfl := hop
    · exact inv_of_exec_init hk ht he
    · exact inv_of_exec_feed hk ht he
    · exact inv_of_exec_fill hk ht he
    · exact inv_of_exec_final hk ht he
  · exact inv_raiseFault (by decide) h.notCompressing h.errorCode

end Sys2Proof
end

section
/-! Stale bytes of BUF, those at OFF and above, are never read. -/

namespace Sys2Proof

open Machine

/-! ## The relation -/

/-- States related by `SameButStale` are one state with two contents of BUF that read alike below OFF. -/
theorem sameButStale_iff {s s' : State} :
    SameButStale s s' ↔ ∃ m : Memory, s' = { s with buf := m } ∧ ∀ j, j < s.off.val → m.read j = s.buf.read j := by
  constructor
  · rintro ⟨h, hread⟩
    exact ⟨s'.buf, congrArg (fun t : State => { t with buf := s'.buf }) h, hread⟩
  · rintro ⟨m, rfl, hread⟩
    exact ⟨rfl, hread⟩

theorem SameButStale.refl (s : State) : SameButStale s s := ⟨rfl, fun _ _ => rfl⟩

/-- With OFF = 0 every byte of BUF is stale. -/
theorem sameButStale_of_offset_zero {s : State} (m : Memory) (h : s.off.val = 0) : SameButStale s { s with buf := m } :=
  ⟨rfl, fun j hj => by omega⟩

/-! ## Pushing -/

/-- A full buffer holds no stale byte, and after COMPRESS all are stale (R90, R100). -/
theorem SameButStale.compress {s s' : State} (h : SameButStale s s') (hfull : s.off.val = 64) :
    SameButStale (compress s) (compress s') := by
  obtain ⟨m, rfl, hread⟩ := sameButStale_iff.mp h
  have hblock : ({ s with buf := m } : State).block = s.block := by
    apply List.map_congr_left
    intro j hj
    have hj64 := List.mem_range.mp hj
    simp [State.bufByte, hread j (by omega)]
  have hm : Machine.compress { s with buf := m } = { Machine.compress s with buf := m } := by
    rw [compress_eq, compress_eq, hblock]
    rfl
  rw [hm]
  exact sameButStale_of_offset_zero m (by simp)

/-- The byte stored at OFF is the same one, and the bytes below OFF stay (R41). -/
theorem SameButStale.storeByte {s s' : State} (h : SameButStale s s') (v : Byte) (ho : s.off.val ≤ 63) :
    SameButStale (s.storeByte v) (s'.storeByte v) := by
  obtain ⟨m, rfl, hread⟩ := sameButStale_iff.mp h
  have h64 : s.off.val < 64 := by omega
  rw [storeByte_eq s v h64, storeByte_eq { s with buf := m } v h64]
  refine ⟨rfl, ?_⟩
  intro j hj
  by_cases hj' : j = s.off.val
  · subst hj'
    simp
  · have hlt : j < s.off.val := by
      simp at hj; omega
    simp [Memory.read_write_other _ v hj', hread j hlt]

theorem SameButStale.offset {s s' : State} (h : SameButStale s s') : s'.off = s.off := by
  obtain ⟨m, rfl, -⟩ := sameButStale_iff.mp h
  rfl

theorem SameButStale.pushByte {s s' : State} (h : SameButStale s s') (v : Byte) (ho : s.off.val ≤ 63) :
    SameButStale (pushByte s v) (pushByte s' v) := by
  have hs := h.storeByte v ho
  have hfull : (s'.storeByte v).bufferFull = (s.storeByte v).bufferFull := by
    rw [State.bufferFull, State.bufferFull, hs.offset]
  rw [Machine.pushByte, Machine.pushByte, hfull]
  split
  next hf => exact hs.compress (by simpa [State.bufferFull] using hf)
  next => exact hs

theorem SameButStale.pushAll {s s' : State} (h : SameButStale s s') (bytes : List Byte) (ho : s.off.val ≤ 63) :
    SameButStale (pushAll bytes s) (pushAll bytes s') := by
  induction bytes generalizing s s' with
  | nil => exact h
  | cons v bytes ih => exact ih (h.pushByte v ho) (pushByte_pushed s v ho).offset_le

/-! ## The other fields -/

theorem SameButStale.pullPush {s s' : State} (h : SameButStale s s') (n : Nat) (ho : s.off.val ≤ 63) :
    SameButStale (pullPush n s) (pullPush n s') := by
  have hp := h.pushAll (s.din.take n) ho
  obtain ⟨m, rfl, -⟩ := sameButStale_iff.mp h
  obtain ⟨m', e, hread⟩ := sameButStale_iff.mp hp
  rw [pullPush_eq, pullPush_eq, e]
  exact ⟨rfl, hread⟩

theorem SameButStale.fed {s s' : State} (h : SameButStale s s') (bytes : List Byte) (ho : s.off.val ≤ 63) :
    SameButStale (s.fed bytes) (s'.fed bytes) := by
  have hp := h.pushAll bytes ho
  obtain ⟨m, rfl, -⟩ := sameButStale_iff.mp h
  obtain ⟨m', e, hread⟩ := sameButStale_iff.mp hp
  rw [State.fed, State.fed, e]
  exact ⟨rfl, hread⟩

/-- A fault leaves no byte of BUF with a value: the two states are one (R154). -/
theorem SameButStale.raiseFault_eq {s s' : State} (h : SameButStale s s') (code : ErrCode) :
    raiseFault code s' = raiseFault code s := by
  obtain ⟨m, rfl, -⟩ := sameButStale_iff.mp h
  rfl

theorem SameButStale.pullDiscard {s s' : State} (h : SameButStale s s') (n : Nat) :
    SameButStale (pullDiscard n s) (pullDiscard n s') := by
  obtain ⟨m, rfl, hread⟩ := sameButStale_iff.mp h
  rw [Machine.pullDiscard, Machine.pullDiscard]
  split
  · exact ⟨rfl, hread⟩
  · exact SameButStale.refl _

theorem SameButStale.count {s s' : State} (h : SameButStale s s') (n : BitVec 16) : SameButStale (s.count n) (s'.count n) := by
  obtain ⟨m, rfl, hread⟩ := sameButStale_iff.mp h
  exact ⟨rfl, hread⟩

theorem SameButStale.setPhase {s s' : State} (h : SameButStale s s') (p : Phase) :
    SameButStale { s with phase := p } { s' with phase := p } := by
  obtain ⟨m, rfl, hread⟩ := sameButStale_iff.mp h
  exact ⟨rfl, hread⟩

theorem SameButStale.phase {s s' : State} (h : SameButStale s s') : s'.phase = s.phase := by
  obtain ⟨m, rfl, -⟩ := sameButStale_iff.mp h
  rfl

/-- The trailer is computed from OFF and CNT alone (R132 to R135). -/
theorem SameButStale.trailer_eq {s s' : State} (h : SameButStale s s') : trailer s' = trailer s := by
  obtain ⟨m, rfl, -⟩ := sameButStale_iff.mp h
  rfl

/-! ## The commands -/

theorem SameButStale.exec_init {s s' t : State} (h : SameButStale s s') (he : exec .init s = .next t) :
    ∃ t', exec .init s' = .next t' ∧ SameButStale t t' := by
  obtain ⟨m, rfl, -⟩ := sameButStale_iff.mp h
  rw [exec_init_eq he]
  exact ⟨_, rfl, sameButStale_of_offset_zero m rfl⟩

theorem SameButStale.exec_feed {s s' t : State} {len : BitVec 16} (h : SameButStale s s') (ho : s.off.val ≤ 63)
    (he : exec (.feed len) s = .next t) : ∃ t', exec (.feed len) s' = .next t' ∧ SameButStale t t' := by
  obtain ⟨ha, rfl⟩ | ⟨ha, rfl⟩ := exec_feed_cases he
  · refine ⟨_, if_pos (h.phase.trans ha), ?_⟩
    by_cases hn : len = 0
    · subst hn; exact h
    · have ho' : s'.off.val ≤ 63 := by rwa [h.offset]
      rw [feedBytes_din len s ho hn, feedBytes_din len s' ho' hn]
      exact (h.count len).pullPush _ ho
  · exact ⟨_, if_neg (h.phase ▸ ha), h.pullDiscard _⟩

theorem SameButStale.exec_fill {s s' t : State} {v : Byte} {n : BitVec 16} (h : SameButStale s s') (ho : s.off.val ≤ 63)
    (he : exec (.fill v n) s = .next t) : ∃ t', exec (.fill v n) s' = .next t' ∧ SameButStale t t' := by
  obtain ⟨ha, rfl⟩ | ⟨ha, rfl⟩ := exec_fill_cases he
  · have ho' : s'.off.val ≤ 63 := by rwa [h.offset]
    refine ⟨_, if_pos (h.phase.trans ha), ?_⟩
    rw [feedBytes_const_eq_fed n v s ho, feedBytes_const_eq_fed n v s' ho']
    exact h.fed _ ho
  · refine ⟨_, if_neg (h.phase ▸ ha), ?_⟩
    rw [h.phase, h.raiseFault_eq]
    exact .refl _

theorem SameButStale.exec_final {s s' t : State} (h : SameButStale s s') (ho : s.off.val ≤ 63)
    (he : exec .final s = .next t) : ∃ t', exec .final s' = .next t' ∧ SameButStale t t' := by
  obtain ⟨ha, e⟩ | ⟨ha, rfl⟩ := exec_final_cases he
  · have ho' : s'.off.val ≤ 63 := by rwa [h.offset]
    refine ⟨finalize s', if_pos (h.phase.trans ha), ?_⟩
    rw [e, finalize_eq s ho, finalize_eq s' ho', h.trailer_eq]
    exact (h.fed _ ho).setPhase _
  · refine ⟨_, if_neg (h.phase ▸ ha), ?_⟩
    rw [h.phase, h.raiseFault_eq]
    exact .refl _

/-- Settles O59, one command at a time: COMPRESS reads BUF only when it is full, and then no byte is stale. -/
theorem staleBytesAreNeverRead : Obligations.StaleBytesAreNeverRead := by
  rintro i s s' t (hi | ⟨len, rfl⟩ | ⟨v, n, rfl⟩) ho h he
  · simp only [List.mem_cons, List.not_mem_nil, or_false] at hi
    obtain rfl | rfl := hi
    · exact h.exec_init he
    · exact h.exec_final ho he
  · exact h.exec_feed ho he
  · exact h.exec_fill ho he

end Sys2Proof
end

section
/-! PHASE and the fault record over a step: which event can change them. -/

namespace Sys2Proof.Machine

/-! ## Commands outside phase ACTIVE -/

/-- What a FEED, FILL or FINAL outside phase ACTIVE may do: wait for the payload that it discards, or fault, DIN being the only
register that it took from (R114, R117, R131). -/
def Refuses (s t : State) : Prop :=
  t = { s with din := t.din, transfer := t.transfer } ∨ ∃ code, t = raiseFault code { s with din := t.din }

theorem raiseFault_refuses (code : ErrCode) (s : State) : Refuses s (raiseFault code s) := .inr ⟨code, rfl⟩

theorem pullDiscard_refuses (n : Nat) (s : State) : Refuses s (pullDiscard n s) := by
  obtain ⟨-, e⟩ | ⟨-, e⟩ := pullDiscard_cases n s
  · exact .inl (by rw [e])
  · exact .inr ⟨feedFault s.phase, by rw [e, raiseFault_din]⟩

/-! ## The fault record -/

/-- ERR and ERRCODE are left as they are. -/
def RecordKept (s t : State) : Prop := t.err = s.err ∧ t.errcode = s.errcode

theorem ControlKept.record {s t : State} (h : ControlKept s t) : RecordKept s t := ⟨h.err, h.errcode⟩

/-- A fault has been recorded: PHASE FAULTED, ERR 1, and the first code kept (R154, R158). -/
structure FaultRecorded (s t : State) : Prop where
  phase : t.phase = .faulted
  err : t.err = true
  firstCode : s.err = true → t.errcode = s.errcode

theorem raiseFault_recorded {s u : State} (code : ErrCode) (h : RecordKept s u) : FaultRecorded s (raiseFault code u) := by
  obtain ⟨herr, hcode⟩ := h
  refine ⟨rfl, rfl, fun hs => ?_⟩
  rw [raiseFault_errcode, herr, hs, if_pos rfl, hcode]

/-- A command that refuses leaves PHASE and the record, or records a fault. -/
theorem Refuses.status {s t : State} (h : Refuses s t) : (t.phase = s.phase ∧ RecordKept s t) ∨ FaultRecorded s t := by
  obtain e | ⟨code, e⟩ := h
  · rw [e]
    exact .inl ⟨rfl, rfl, rfl⟩
  · rw [e]
    exact .inr (raiseFault_recorded code ⟨rfl, rfl⟩)

/-! ## The commands -/

/-- The four commands at once: INIT; in phase ACTIVE a FINAL, or a FEED or FILL, which writes no control state; outside it a
refusal. -/
theorem command_cases {op : Instr} {s t : State}
    (hop : op = .init ∨ (∃ len, op = .feed len) ∨ (∃ v n, op = .fill v n) ∨ op = .final) (h : exec op s = .next t) :
    op = .init ∨ (s.phase = .active ∧ ((op = .final ∧ t = finalize s) ∨ ControlKept s t)) ∨
      (s.phase ≠ .active ∧ Refuses s t) := by
  obtain rfl | ⟨len, rfl⟩ | ⟨v, n, rfl⟩ | rfl := hop
  · exact .inl rfl
  · obtain ⟨ha, rfl⟩ | ⟨ha, rfl⟩ := exec_feed_cases h
    · exact .inr (.inl ⟨ha, .inr (feedBytes_controlKept ..)⟩)
    · exact .inr (.inr ⟨ha, pullDiscard_refuses _ s⟩)
  · obtain ⟨ha, rfl⟩ | ⟨ha, rfl⟩ := exec_fill_cases h
    · exact .inr (.inl ⟨ha, .inr (feedBytes_controlKept ..)⟩)
    · exact .inr (.inr ⟨ha, raiseFault_refuses _ s⟩)
  · obtain ⟨ha, e⟩ | ⟨ha, rfl⟩ := exec_final_cases h
    · exact .inr (.inl ⟨ha, .inl ⟨rfl, e⟩⟩)
    · exact .inr (.inr ⟨ha, raiseFault_refuses _ s⟩)

/-! ## The step -/

/-- The events of R27: what a step does to PHASE and the fault record. -/
inductive StatusEvent (s t : State) : Prop where
  /-- RESET (R180). -/
  | reset (asserted : s.resetIn = true) (phase : t.phase = .idle)
  /-- A step that opens and closes no message and takes no fault. -/
  | quiet (phase : t.phase = s.phase) (record : RecordKept s t)
  /-- INIT (R110). -/
  | opened (fetched : fetch s = .command .init) (phase : t.phase = .active) (record : RecordKept s t)
  /-- FINAL in phase ACTIVE (R131). -/
  | closed (fetched : fetch s = .command .final) (active : s.phase = .active) (phase : t.phase = .done) (record : RecordKept s t)
  /-- A fault (R154). -/
  | faulted (fault : FaultRecorded s t)

/-- A held FEED: in phase ACTIVE it moves bytes, elsewhere it refuses (R185). -/
theorem resumeTransfer_event (x : Transfer) (s : State) : StatusEvent s (resumeTransfer x s) := by
  cases x with
  | push left =>
    have hk := pullPush_controlKept left s
    exact .quiet hk.phase hk.record
  | discard left =>
    obtain ⟨hp, hr⟩ | hf := (pullDiscard_refuses left s).status
    · exact .quiet hp hr
    · exact .faulted hf

theorem command_event {op : Instr} {s t : State} (hfetch : fetch s = .command op)
    (hop : op = .init ∨ (∃ len, op = .feed len) ∨ (∃ v n, op = .fill v n) ∨ op = .final)
    (h : exec op (takeCommand s) = .next t) : StatusEvent s t := by
  obtain rfl | ⟨ha, ⟨rfl, e⟩ | hk⟩ | ⟨-, hr⟩ := command_cases hop h
  · rw [exec_init_eq h]
    exact .opened hfetch rfl ⟨rfl, rfl⟩
  · rw [e]
    exact .closed hfetch ha (finalize_phase _) ⟨finalize_err _, finalize_errcode _⟩
  · exact .quiet hk.phase hk.record
  · obtain ⟨hp, hr⟩ | hf := hr.status
    · exact .quiet hp hr
    · exact .faulted ⟨hf.phase, hf.err, hf.firstCode⟩

/-- Every step is one of these events. -/
theorem step_event {s t : State} (h : step s = .next t) : StatusEvent s t := by
  obtain ⟨hr, rfl⟩ | ⟨-, -, rfl⟩ | ⟨-, -, x, -, rfl⟩ | ⟨-, -, -, ⟨-, rfl⟩ | ⟨op, hf, he, hop⟩ | ⟨why, -, rfl⟩⟩ :=
    step_cases h
  · exact .reset hr rfl
  · have hk := closeStep_controlKept s.i (stepAt s.i s)
    exact .quiet hk.phase hk.record
  · exact resumeTransfer_event x s
  · exact .quiet rfl ⟨rfl, rfl⟩
  · exact command_event hf hop he
  · exact .faulted (raiseFault_recorded _ ⟨rfl, rfl⟩)

/-- Settles O46: of the events of a step only RESET clears the record. -/
theorem faultRecordIsSticky : Obligations.FaultRecordIsSticky := by
  intro s t hstep herr hreset
  cases step_event hstep with
  | reset hr => simp [hreset] at hr
  | quiet _ hk => exact ⟨hk.1.trans herr, hk.2⟩
  | opened _ _ hk => exact ⟨hk.1.trans herr, hk.2⟩
  | closed _ _ _ hk => exact ⟨hk.1.trans herr, hk.2⟩
  | faulted hf => exact ⟨hf.err, hf.firstCode herr⟩

/-- Settles O48: each event of a step enters one phase. -/
theorem phasesAreEntered : Obligations.PhasesAreEntered := by
  intro s t hstep hne
  cases step_event hstep with
  | reset hr hp => simp [hp, hr]
  | quiet hp => exact absurd hp hne
  | opened hf hp => simp [hp, hf]
  | closed hf ha hp => simp [hp, hf, ha]
  | faulted hf => simp [hf.phase, hf.err]

end Sys2Proof.Machine
end

section
/-! The chaining registers, which are the digest: which instruction can change them. -/

namespace Sys2Proof.Machine

/-! ## The chaining registers change with the count of compressions -/

/-- Compressions are counted, and without one the chaining registers stay (R21, R142). -/
def ChainByBlocks (s t : State) : Prop := s.comps ≤ t.comps ∧ (t.comps = s.comps → t.chain = s.chain)

theorem ChainByBlocks.refl (s : State) : ChainByBlocks s s := ⟨le_rfl, fun _ => rfl⟩

theorem ChainByBlocks.trans {s t u : State} (h : ChainByBlocks s t) (k : ChainByBlocks t u) : ChainByBlocks s u := by
  obtain ⟨hle, hchain⟩ := h
  obtain ⟨kle, kchain⟩ := k
  exact ⟨hle.trans kle, fun e => (kchain (by omega)).trans (hchain (by omega))⟩

/-- PHASE is no part of it. -/
theorem ChainByBlocks.setPhase {s t : State} (h : ChainByBlocks s t) (p : Phase) : ChainByBlocks s { t with phase := p } := h

theorem compress_chainByBlocks (s : State) : ChainByBlocks s (compress s) := by
  constructor <;> simp

theorem storeByte_chainByBlocks (s : State) (v : Byte) : ChainByBlocks s (s.storeByte v) := by
  rw [State.storeByte]
  split <;> exact .refl _

theorem pushByte_chainByBlocks (s : State) (v : Byte) : ChainByBlocks s (pushByte s v) := by
  have hs := storeByte_chainByBlocks s v
  rw [pushByte]
  split
  · exact hs.trans (compress_chainByBlocks _)
  · exact hs

theorem pushAll_chainByBlocks (bytes : List Byte) (s : State) : ChainByBlocks s (pushAll bytes s) := by
  induction bytes generalizing s with
  | nil => exact .refl s
  | cons v bytes ih => exact (pushByte_chainByBlocks s v).trans (ih _)

theorem pullPush_chainByBlocks (n : Nat) (s : State) : ChainByBlocks s (pullPush n s) := by
  rw [pullPush_eq]
  exact pushAll_chainByBlocks (s.din.take n) s

theorem compressIfFull_chainByBlocks (s : State) : ChainByBlocks s (compressIfFull s) := by
  rw [compressIfFull]
  split
  · exact compress_chainByBlocks s
  · exact .refl s

theorem feedBytes_chainByBlocks (n : BitVec 16) (src : ByteSrc) (s : State) : ChainByBlocks s (feedBytes n src s) := by
  have hc : ChainByBlocks s (compressIfFull (s.count n)) := compressIfFull_chainByBlocks (s.count n)
  unfold feedBytes
  split
  · exact .refl s
  · cases src with
    | din => exact hc.trans (pullPush_chainByBlocks _ _)
    | const v => exact hc.trans (pushAll_chainByBlocks _ _)
    | lengthField bits => exact hc.trans (pushAll_chainByBlocks _ _)

theorem padBlock_chainByBlocks (s : State) : ChainByBlocks s (padBlock s) := by
  rw [padBlock]
  split
  · exact feedBytes_chainByBlocks ..
  · exact .refl s

theorem padLength_chainByBlocks (bits : BitVec 64) (s : State) : ChainByBlocks s (padLength bits s) :=
  feedBytes_chainByBlocks ..

/-- The whole trailer, before PHASE is written. -/
theorem pad_chainByBlocks (bits : BitVec 64) (s : State) :
    ChainByBlocks s (padLength bits (padZeros (padBlock (padMarker s)))) := by
  have hmarker : ChainByBlocks s (padMarker s) := feedBytes_chainByBlocks ..
  have hblock := hmarker.trans (padBlock_chainByBlocks (padMarker s))
  generalize padBlock (padMarker s) = t at *
  have hzeros : ChainByBlocks t (padZeros t) := feedBytes_chainByBlocks ..
  exact (hblock.trans hzeros).trans (padLength_chainByBlocks bits _)

theorem finalize_chainByBlocks (s : State) : ChainByBlocks s (finalize s) :=
  (pad_chainByBlocks (bitLength s.cnt) s).setPhase .done

/-! ## Every instruction -/

/-- What R21 allows an instruction other than INIT: the chaining registers stay, or it ran a compression, or it took a fault. -/
def ChainSafe (s t : State) : Prop :=
  t.chain = s.chain ∨ t.comps ≠ s.comps ∨ ∃ code, t = raiseFault code { s with din := t.din }

theorem ChainByBlocks.safe {s t : State} (h : ChainByBlocks s t) : ChainSafe s t := by
  by_cases e : t.comps = s.comps
  · exact .inl (h.2 e)
  · exact .inr (.inl e)

/-- A step micro-operation writes the working registers and the index only (R104). -/
theorem stepAt_chainSafe (i : BitVec 6) (s : State) : ChainSafe s (stepAt i s) := .inl rfl

theorem Refuses.chainSafe {s t : State} (h : Refuses s t) : ChainSafe s t := by
  obtain e | hf := h
  · exact .inl (by rw [e]; rfl)
  · exact .inr (.inr hf)

/-- Settles O49: FEED, FILL, FINAL and the byte micro-operations move the chaining registers by compressions only, or they refuse. -/
theorem chainChangesOnlyByInitCompressOrFault : Obligations.ChainChangesOnlyByInitCompressOrFault := by
  intro i s t h
  suffices hsafe : i = .init ∨ ChainSafe s t by
    obtain hi | hc | hb | hf := hsafe
    exacts [.inr (.inl hi), .inl hc, .inr (.inr (.inl hb)), .inr (.inr (.inr hf))]
  cases i with
  | init => exact .inl rfl
  | feed len =>
    obtain ⟨-, rfl⟩ | ⟨-, rfl⟩ := exec_feed_cases h
    · exact .inr (feedBytes_chainByBlocks ..).safe
    · exact .inr (pullDiscard_refuses ..).chainSafe
  | fill v n =>
    obtain ⟨-, rfl⟩ | ⟨-, rfl⟩ := exec_fill_cases h
    · exact .inr (feedBytes_chainByBlocks ..).safe
    · exact .inr (raiseFault_refuses ..).chainSafe
  | final =>
    obtain ⟨-, e⟩ | ⟨-, rfl⟩ := exec_final_cases h
    · exact .inr (e ▸ finalize_chainByBlocks s).safe
    · exact .inr (raiseFault_refuses ..).chainSafe
  | stepF j => exact .inr (Host.Outcome.next.inj h ▸ stepAt_chainSafe _ s)
  | stepG j => exact .inr (Host.Outcome.next.inj h ▸ stepAt_chainSafe _ s)
  | stepH j => exact .inr (Host.Outcome.next.inj h ▸ stepAt_chainSafe _ s)
  | stepI j => exact .inr (Host.Outcome.next.inj h ▸ stepAt_chainSafe _ s)
  | compress => exact .inr (Host.Outcome.next.inj h ▸ compress_chainByBlocks s).safe
  | pushbyte v =>
    simp only [exec, execPushbyte] at h
    split at h
    · cases h
    · exact .inr (Host.Outcome.next.inj h ▸ pushByte_chainByBlocks s v).safe
  | feedbytes n src =>
    simp only [exec, execFeedbytes] at h
    split at h
    · exact .inr (Host.Outcome.next.inj h ▸ feedBytes_chainByBlocks n src s).safe
    · cases h
  | serialize => exact .inr (.inl (by rw [← Host.Outcome.next.inj h]))

/-! ## The digest in phase DONE -/

/-- A command that refuses and leaves PHASE DONE has not faulted: the digest stays (R145). -/
theorem Refuses.digest_eq {s t : State} (h : Refuses s t) (hdone : t.phase = .done) : t.digest = s.digest := by
  obtain e | ⟨code, e⟩ := h
  · rw [e]
    rfl
  · rw [e, raiseFault_phase] at hdone
    cases hdone

/-- From phase DONE, between commands, a step that stays there changes no chaining register: INIT, RESET and a fault leave the phase,
and every other command waits or refuses (R145). -/
theorem step_digest_eq {s t : State} (hs : s.phase = .done) (hc : s.compressing = false) (hx : s.transfer = none)
    (hstep : step s = .next t) (ht : t.phase = .done) : t.digest = s.digest := by
  obtain ⟨-, rfl⟩ | ⟨-, hc', -⟩ | ⟨-, -, x, hx', -⟩ | ⟨-, -, -, ⟨-, rfl⟩ | ⟨op, -, he, hop⟩ | ⟨why, -, rfl⟩⟩ :=
    step_cases hstep
  · cases ht
  · simp [hc] at hc'
  · simp [hx] at hx'
  · rfl
  · obtain rfl | ⟨ha, -⟩ | ⟨-, hr⟩ := command_cases hop he
    · rw [exec_init_eq he] at ht
      cases ht
    · rw [State.phase_takeCommand, hs] at ha
      cases ha
    · exact hr.digest_eq ht
  · cases ht

/-- Settles O50: the steps, and the two reads between commands. -/
theorem digestIsImmutable : Obligations.DigestIsImmutable := by
  intro s hs hc hx
  refine ⟨fun t hstep ht => step_digest_eq hs hc hx hstep ht, ?_, ?_⟩
  · simp [hostDigest, State.digestValid, State.busy, hs, hc, hx]
  · simp [hostStatus, State.busy, hc, hx]

end Sys2Proof.Machine
end

section
/-! STATUS, the state after reset, and the step inside a compression. -/

namespace Sys2Proof.Machine

/-! ## The fields of STATUS -/

/-- A bit above the lower part of two appended vectors is a bit of the upper part. -/
theorem getLsbD_append_of_le {n m i : Nat} (x : BitVec n) (y : BitVec m) (h : m ≤ i) :
    (x ++ y).getLsbD i = x.getLsbD (i - m) := by
  rw [BitVec.getLsbD_append, if_neg (by omega)]

/-- Bit 0 of a vector with one bit appended below it. -/
theorem getLsbD_append_ofBool {n : Nat} (x : BitVec n) (b : Bool) : (x ++ BitVec.ofBool b).getLsbD 0 = b := by
  rw [BitVec.getLsbD_append, if_pos (by decide), BitVec.getLsbD_ofBool]
  simp

theorem State.status_phase (s : State) : s.status.extractLsb' 0 2 = s.phase.bits := BitVec.extractLsb'_append_eq_right

theorem State.status_err (s : State) : s.status.getLsbD 2 = s.err :=
  (getLsbD_append_of_le _ _ (by decide)).trans (getLsbD_append_ofBool _ _)

theorem State.status_digestValid (s : State) : s.status.getLsbD 3 = s.digestValid :=
  (getLsbD_append_of_le _ _ (by decide)).trans <|
    (getLsbD_append_of_le _ _ (by decide)).trans (getLsbD_append_ofBool _ _)

theorem State.status_errcode (s : State) : s.status.extractLsb' 4 3 = s.errcode.bits :=
  (BitVec.extractLsb'_append_eq_of_le (by decide)).trans <|
    (BitVec.extractLsb'_append_eq_of_le (by decide)).trans <|
      (BitVec.extractLsb'_append_eq_of_le (by decide)).trans BitVec.extractLsb'_append_eq_right

theorem State.status_top (s : State) : s.status.getLsbD 7 = false :=
  (getLsbD_append_of_le _ _ (by decide)).trans <|
    (getLsbD_append_of_le _ _ (by decide)).trans <|
      (getLsbD_append_of_le _ _ (by decide)).trans (getLsbD_append_of_le (0 : BitVec 1) _ (by decide))

/-- Between commands the host reads STATUS, without side effect (R29, R187). -/
theorem hostStatus_of_not_busy {s : State} (h : s.busy = false) : hostStatus s = (s.status, s) := by
  rw [hostStatus, if_neg (by simp [h])]

/-- Settles O53: each field of STATUS, and the two reads of it. -/
theorem statusLayout : Obligations.StatusLayout := by
  intro s
  refine ⟨?_, s.status_err, ?_, ?_, s.status_top, ?_, s.status_phase, s.status_errcode, ?_⟩
  · rw [s.status_phase]
    refine ⟨?_, ?_, ?_, ?_⟩ <;> (intro h; rw [h]; rfl)
  · rw [s.status_digestValid, State.digestValid, decide_eq_true_iff]
  · rw [s.status_errcode]
    refine ⟨?_, ?_, ?_, ?_, ?_⟩ <;> (intro h; rw [h]; rfl)
  · intro hinv herr
    rw [s.status_errcode, hinv.errorCode.mpr herr]
    rfl
  · intro hb _ _
    refine ⟨hostStatus_of_not_busy hb, s.status.setWidth 32, ?_, ?_⟩
    · rw [hostRead, if_pos rfl, hostStatus_of_not_busy hb]
    · rw [BitVec.extractLsb'_setWidth_of_le (by decide), BitVec.extractLsb'_eq_self]

/-- Settles O52: State.reset, field by field. -/
theorem resetState : Obligations.ResetState := by
  refine ⟨rfl, rfl, rfl, ?_, rfl, rfl, rfl⟩
  decide

/-! ## Inside a compression -/

/-- Settles O56: the selected micro-operation is STEP of the index, and the step closes after it. -/
theorem stepRunsTheMicroOperation : Obligations.StepRunsTheMicroOperation :=
  fun s hr hc => ⟨stepAt s.i s, exec_decodeStep s.i s, step_of_micro hr hc⟩

end Sys2Proof.Machine
end

section
/-! The numbered registers of the host (R50): STATUS, the quarters of DIGEST, and the numbers that do not exist. -/

namespace Sys2Proof.Machine

/-! ## The quarters of DIGEST -/

/-- R73. The quarters of DIGEST are the chaining registers, A in the lowest bits. -/
theorem State.digest_quarter_A (s : State) : s.digest.extractLsb' 0 32 = s.A := BitVec.extractLsb'_append_eq_right

theorem State.digest_quarter_B (s : State) : s.digest.extractLsb' 32 32 = s.B :=
  (BitVec.extractLsb'_append_eq_of_le (by decide)).trans BitVec.extractLsb'_append_eq_right

theorem State.digest_quarter_C (s : State) : s.digest.extractLsb' 64 32 = s.C :=
  (BitVec.extractLsb'_append_eq_of_le (by decide)).trans <|
    (BitVec.extractLsb'_append_eq_of_le (by decide)).trans BitVec.extractLsb'_append_eq_right

theorem State.digest_quarter_D (s : State) : s.digest.extractLsb' 96 32 = s.D :=
  (BitVec.extractLsb'_append_eq_of_le (by decide)).trans <|
    (BitVec.extractLsb'_append_eq_of_le (by decide)).trans BitVec.extractLsb'_append_eq_left

/-! ## The reads by number -/

/-- Between commands register 0 shows STATUS, and the read changes nothing (R29, R50). -/
theorem hostRead_status {s : State} (hb : s.busy = false) : hostRead 0 s = .ok (s.status.setWidth 32, s) := by
  rw [hostRead, if_pos rfl, hostStatus_of_not_busy hb]

/-- Between commands in phase DONE a quarter read shows its 32 bits of DIGEST, and changes nothing (R30, R73). -/
theorem hostQuarter_of_done {s : State} (hb : s.busy = false) (hd : s.phase = .done) (q : Nat) :
    hostQuarter q s = (s.digest.extractLsb' (32 * q) 32, s) := by
  rw [hostQuarter, if_pos (by simp [State.digestValid, hb, hd])]

/-- Register 1 + q is quarter q of DIGEST, for each of the four quarters (R50). -/
theorem hostRead_quarter {q : Nat} (hq : q < 4) (s : State) : hostRead (q + 1) s = .ok (hostQuarter q s) := by
  rw [hostRead, if_neg (by omega), if_pos (by omega), Nat.add_sub_cancel]

/-- The digest read by register number, in phase DONE between commands. -/
theorem hostRead_digest {s : State} (hb : s.busy = false) (hd : s.phase = .done) {q : Nat} (hq : q < 4) :
    hostRead (q + 1) s = .ok (s.digest.extractLsb' (32 * q) 32, s) := by
  rw [hostRead_quarter hq, hostQuarter_of_done hb hd]

/-- Register numbers 5 and above do not exist (R50). -/
theorem hostRead_refuses {number : Nat} (h : 5 ≤ number) (s : State) :
    hostRead number s = .error (.noSuchRegister number) := by
  rw [hostRead, if_neg (by omega), if_neg (by omega)]

/-- Settles O54: register 0, the four quarters in order, and the refused numbers. -/
theorem hostRegisters : Obligations.HostRegisters := by
  intro s
  refine ⟨hostRead_status, fun hb hd => ⟨?_, ?_, ?_, ?_⟩, fun number h => hostRead_refuses h s⟩
  · rw [← s.digest_quarter_A]
    exact hostRead_digest hb hd (q := 0) (by decide)
  · rw [← s.digest_quarter_B]
    exact hostRead_digest hb hd (q := 1) (by decide)
  · rw [← s.digest_quarter_C]
    exact hostRead_digest hb hd (q := 2) (by decide)
  · rw [← s.digest_quarter_D]
    exact hostRead_digest hb hd (q := 3) (by decide)

end Sys2Proof.Machine
end

section
/-! The two encoded formats: their fields, and the decoder against the encoder. -/

namespace Sys2Proof

/-! ## The fields of a command word -/

section
variable (op rsv1 : BitVec 4) (value : Byte) (len : BitVec 16)

@[simp] theorem fieldOp_cmdWord : fieldOp (cmdWord op rsv1 value len) = op :=
  (BitVec.extractLsb'_append_eq_of_le (by decide)).trans <|
    (BitVec.extractLsb'_append_eq_of_le (by decide)).trans BitVec.extractLsb'_append_eq_left

@[simp] theorem fieldRsv1_cmdWord : fieldRsv1 (cmdWord op rsv1 value len) = rsv1 :=
  (BitVec.extractLsb'_append_eq_of_le (by decide)).trans <|
    (BitVec.extractLsb'_append_eq_of_le (by decide)).trans BitVec.extractLsb'_append_eq_right

@[simp] theorem fieldValue_cmdWord : fieldValue (cmdWord op rsv1 value len) = value :=
  (BitVec.extractLsb'_append_eq_of_le (by decide)).trans BitVec.extractLsb'_append_eq_right

@[simp] theorem fieldLen_cmdWord : fieldLen (cmdWord op rsv1 value len) = len := BitVec.extractLsb'_append_eq_right

end

/-- R61. The four fields of a word, laid side by side, are the word. -/
theorem cmdWord_fields (w : Word) : cmdWord (fieldOp w) (fieldRsv1 w) (fieldValue w) (fieldLen w) = w := by
  simp (disch := decide) only [cmdWord, fieldOp, fieldRsv1, fieldValue, fieldLen,
    BitVec.extractLsb'_append_extractLsb'_eq_extractLsb', BitVec.extractLsb'_eq_self]

theorem cmdWord_eq_of_fields {w : Word} {o r : BitVec 4} {v : Byte} {l : BitVec 16} (ho : fieldOp w = o)
    (hr : fieldRsv1 w = r) (hv : fieldValue w = v) (hl : fieldLen w = l) : cmdWord o r v l = w := by
  rw [← ho, ← hr, ← hv, ← hl, cmdWord_fields]

/-! ## The fields of a step index -/

@[simp] theorem fieldRound_stepIndex (r : BitVec 2) (j : BitVec 4) : fieldRound (stepIndex r j) = r :=
  BitVec.extractLsb'_append_eq_left

@[simp] theorem fieldPos_stepIndex (r : BitVec 2) (j : BitVec 4) : fieldPos (stepIndex r j) = j :=
  BitVec.extractLsb'_append_eq_right

/-! ## The decoder against the encoder -/

/-- A command word decodes to an instruction exactly when it is that instruction's code (R61 to R66). -/
theorem decodeCmd_eq_ok_iff {w : Word} {op : Instr} : decodeCmd w = .ok op ↔ encode op = .cmd w := by
  constructor
  · intro h
    unfold decodeCmd at h
    split_ifs at h with hr h1 hv hl h2 hv h3 h4 hv hl
    all_goals cases h
    · exact congrArg Code.cmd (cmdWord_eq_of_fields h1 (not_not.mp hr) (not_not.mp hv) (not_not.mp hl))
    · exact congrArg Code.cmd (cmdWord_eq_of_fields h2 (not_not.mp hr) (not_not.mp hv) rfl)
    · exact congrArg Code.cmd (cmdWord_eq_of_fields h3 (not_not.mp hr) rfl rfl)
    · exact congrArg Code.cmd (cmdWord_eq_of_fields h4 (not_not.mp hr) (not_not.mp hv) (not_not.mp hl))
  · intro h
    cases op
    case init | feed | fill | final =>
      rw [← Code.cmd.inj h]
      simp [decodeCmd]
    all_goals cases h

/-- A step index selects a micro-operation exactly when it is that micro-operation's code (R68, R69). -/
theorem decodeStep_eq_iff {i : BitVec 6} {op : Instr} : decodeStep i = op ↔ encode op = .step i := by
  constructor
  · rintro rfl
    obtain ⟨h0, h1, h2, h3⟩ := Machine.decodeStep_fields i
    unfold decodeStep
    split_ifs with r0 r1 r2
    · exact congrArg Code.step (h0 r0)
    · exact congrArg Code.step (h1 r1)
    · exact congrArg Code.step (h2 r2)
    · exact congrArg Code.step (h3 r0 r1 r2)
  · intro h
    cases op
    case stepF | stepG | stepH | stepI =>
      rw [← Code.step.inj h]
      simp [decodeStep]
    all_goals cases h

/-- Settles O2: each format on its own; an instruction without a code is excluded. -/
theorem decodeOfEncode : Obligations.DecodeOfEncode := by
  intro op hcode
  cases h : encode op with
  | cmd w => exact decodeCmd_eq_ok_iff.mpr h
  | step i => exact congrArg Except.ok (decodeStep_eq_iff.mpr h)
  | unencoded => exact absurd h hcode

/-- Settles O3: each format on its own; the missing code decodes to nothing. -/
theorem encodeOfDecode : Obligations.EncodeOfDecode := by
  intro c op h
  cases c with
  | cmd w => exact decodeCmd_eq_ok_iff.mp h
  | step i => exact decodeStep_eq_iff.mp (Except.ok.inj h)
  | unencoded => cases h

/-- Settles O1: each code is the encoder's. -/
theorem writtenOutWordsDecode : Obligations.WrittenOutWordsDecode := by
  simp only [Obligations.WrittenOutWordsDecode, decodeCmd_eq_ok_iff, decodeStep_eq_iff]
  decide

/-! ## The step index -/

/-- R68. The round is the index divided by 16. -/
theorem fieldRound_toNat (i : BitVec 6) : (fieldRound i).toNat = i.toNat / 16 := by
  rw [fieldRound, BitVec.extractLsb'_toNat, Nat.shiftRight_eq_div_pow]
  omega

/-- R68. The position is the index mod 16. -/
theorem fieldPos_eq_ofNat (i : BitVec 6) : fieldPos i = BitVec.ofNat 4 (i.toNat % 16) := by
  apply BitVec.eq_of_toNat_eq
  rw [fieldPos, BitVec.extractLsb'_toNat, BitVec.toNat_ofNat, Nat.shiftRight_zero, Nat.mod_mod]

/-- Settles O5: the index by its two fields, and the micro-operation and function of the round. -/
theorem stepIndexSelects : Obligations.StepIndexSelects := by
  intro i
  rw [← fieldPos_eq_ofNat, ← fieldRound_toNat]
  have round {r : Nat} (h : (fieldRound i).toNat = r) : fieldRound i = BitVec.ofNat 2 r := by
    rw [← h, BitVec.ofNat_toNat, BitVec.setWidth_eq]
  refine ⟨fun h => ?_, fun h => ?_, fun h => ?_, fun h => ?_⟩
  all_goals
    rw [decodeStep, round h]
    exact ⟨rfl, rfl⟩

end Sys2Proof
end

section
/-! Legal command words: by their fields, by the (match, mask) pairs of R66, and the fault of an illegal one. -/

namespace Sys2Proof

open Machine

/-! ## Words by their fields -/

/-- Two words are equal exactly when their four fields are (R61). -/
theorem word_eq_iff {w w' : Word} : w = w' ↔
    fieldOp w = fieldOp w' ∧ fieldRsv1 w = fieldRsv1 w' ∧ fieldValue w = fieldValue w' ∧ fieldLen w = fieldLen w' := by
  constructor
  · rintro rfl
    exact ⟨rfl, rfl, rfl, rfl⟩
  · rintro ⟨ho, hr, hv, hl⟩
    exact (cmdWord_fields w).symm.trans (cmdWord_eq_of_fields ho.symm hr.symm hv.symm hl.symm)

theorem fieldOp_and (w m : Word) : fieldOp (w &&& m) = fieldOp w &&& fieldOp m := BitVec.extractLsb'_and
theorem fieldRsv1_and (w m : Word) : fieldRsv1 (w &&& m) = fieldRsv1 w &&& fieldRsv1 m := BitVec.extractLsb'_and
theorem fieldValue_and (w m : Word) : fieldValue (w &&& m) = fieldValue w &&& fieldValue m := BitVec.extractLsb'_and
theorem fieldLen_and (w m : Word) : fieldLen (w &&& m) = fieldLen w &&& fieldLen m := BitVec.extractLsb'_and

/-- A mask made of whole fields compares the fields that it covers. -/
theorem masked_eq_iff {w : Word} {o r o' r' : BitVec 4} {v v' : Byte} {l l' : BitVec 16} :
    w &&& cmdWord o r v l = cmdWord o' r' v' l' ↔
      fieldOp w &&& o = o' ∧ fieldRsv1 w &&& r = r' ∧ fieldValue w &&& v = v' ∧ fieldLen w &&& l = l' := by
  simp only [word_eq_iff, fieldOp_and, fieldRsv1_and, fieldValue_and, fieldLen_and, fieldOp_cmdWord, fieldRsv1_cmdWord,
    fieldValue_cmdWord, fieldLen_cmdWord]

/-- The 24 bits of VALUE and LEN are zero when both fields are. -/
theorem value_len_eq_zero_iff (w : Word) : w.extractLsb' 0 24 = 0 ↔ fieldValue w = 0 ∧ fieldLen w = 0 := by
  have happend : w.extractLsb' 0 24 = fieldValue w ++ fieldLen w :=
    (BitVec.extractLsb'_append_extractLsb'_eq_extractLsb' (len₁ := 16) (len₂ := 8) rfl).symm
  rw [happend]
  constructor
  · intro h
    exact ⟨BitVec.extractLsb'_append_eq_left.symm.trans (congrArg (BitVec.extractLsb' 16 8) h),
      BitVec.extractLsb'_append_eq_right.symm.trans (congrArg (BitVec.extractLsb' 0 16) h)⟩
  · rintro ⟨hv, hl⟩
    rw [hv, hl]
    rfl

/-! ## Legality -/

/-- R66. Legality by fields: RSV1 is zero, and so are the fields that the command named by OP does not use (R62 to R65). -/
theorem decodeCmd_legal_iff (w : Word) : (∃ op, decodeCmd w = .ok op) ↔
    fieldRsv1 w = 0 ∧ ((fieldOp w = 1 ∧ fieldValue w = 0 ∧ fieldLen w = 0) ∨ (fieldOp w = 2 ∧ fieldValue w = 0) ∨
      fieldOp w = 3 ∨ (fieldOp w = 4 ∧ fieldValue w = 0 ∧ fieldLen w = 0)) := by
  constructor
  · rintro ⟨op, h⟩
    have hcode := decodeCmd_eq_ok_iff.mp h
    obtain rfl | ⟨len, rfl⟩ | ⟨v, n, rfl⟩ | rfl := decodeCmd_commands h
    all_goals
      rw [← Code.cmd.inj hcode]
      simp
  · rintro ⟨hr, ⟨ho, hv, hl⟩ | ⟨ho, hv⟩ | ho | ⟨ho, hv, hl⟩⟩
    · exact ⟨.init, by simp [decodeCmd, *]⟩
    · exact ⟨.feed (fieldLen w), by simp [decodeCmd, *]⟩
    · exact ⟨.fill (fieldValue w) (fieldLen w), by simp [decodeCmd, *]⟩
    · exact ⟨.final, by simp [decodeCmd, *]⟩

/-- R66. Legality by the (match, mask) pairs of the four commands. -/
theorem decodeCmd_legal_iff_masks (w : Word) : (∃ op, decodeCmd w = .ok op) ↔
    (w &&& 0xFFFFFFFF = 0x10000000 ∨ w &&& 0xFFFF0000 = 0x20000000 ∨
      w &&& 0xFF000000 = 0x30000000 ∨ w &&& 0xFFFFFFFF = 0x40000000) := by
  have whole : (0xFFFFFFFF : Word) = cmdWord (.allOnes 4) (.allOnes 4) (.allOnes 8) (.allOnes 16) := by decide
  have upper : (0xFFFF0000 : Word) = cmdWord (.allOnes 4) (.allOnes 4) (.allOnes 8) 0 := by decide
  have op_rsv1 : (0xFF000000 : Word) = cmdWord (.allOnes 4) (.allOnes 4) 0 0 := by decide
  have hinit : (0x10000000 : Word) = cmdWord 1 0 0 0 := by decide
  have hfeed : (0x20000000 : Word) = cmdWord 2 0 0 0 := by decide
  have hfill : (0x30000000 : Word) = cmdWord 3 0 0 0 := by decide
  have hfinal : (0x40000000 : Word) = cmdWord 4 0 0 0 := by decide
  rw [decodeCmd_legal_iff, whole, upper, op_rsv1, hinit, hfeed, hfill, hfinal]
  simp only [masked_eq_iff, BitVec.and_allOnes, BitVec.and_zero, BitVec.ofNat_eq_ofNat, and_true]
  tauto

/-- A word is rejected exactly when it is no code of an instruction. -/
theorem decodeCmd_error_iff_not_ok (w : Word) : (∃ why, decodeCmd w = .error why) ↔ ¬ ∃ op, decodeCmd w = .ok op := by
  cases decodeCmd w <;> simp

/-- R66. Illegality by fields. -/
theorem decodeCmd_illegal_iff_fields (w : Word) : (∃ why, decodeCmd w = .error why) ↔
    ((w.extractLsb' 28 4 = 0 ∨ 5 ≤ (w.extractLsb' 28 4).toNat) ∨ w.extractLsb' 24 4 ≠ 0 ∨
      ((w.extractLsb' 28 4 = 1 ∨ w.extractLsb' 28 4 = 4) ∧ w.extractLsb' 0 24 ≠ 0) ∨
      (w.extractLsb' 28 4 = 2 ∧ w.extractLsb' 16 8 ≠ 0)) := by
  have hop (o : BitVec 4) : (o = 0 ∨ 5 ≤ o.toNat) ↔ ¬ (o = 1 ∨ o = 2 ∨ o = 3 ∨ o = 4) := by
    revert o
    decide
  rw [decodeCmd_error_iff_not_ok, decodeCmd_legal_iff, hop, ne_eq (w.extractLsb' 0 24), value_len_eq_zero_iff]
  change ¬ _ ↔ (¬ (fieldOp w = 1 ∨ fieldOp w = 2 ∨ fieldOp w = 3 ∨ fieldOp w = 4) ∨ fieldRsv1 w ≠ 0 ∨
    ((fieldOp w = 1 ∨ fieldOp w = 4) ∧ ¬ (fieldValue w = 0 ∧ fieldLen w = 0)) ∨ (fieldOp w = 2 ∧ fieldValue w ≠ 0))
  generalize fieldOp w = o
  by_cases ho : o = 1 ∨ o = 2 ∨ o = 3 ∨ o = 4
  · obtain rfl | rfl | rfl | rfl := ho <;> simp [imp_iff_not_or]
  · tauto

/-- An illegal word first on CMD of a ready core raises ILLEGAL_CMD (R66, R154). -/
theorem Ready.step_illegal {s : State} {w : Word} {rest : List Word} {why : Reject} (h : Ready s) (hq : s.cmd = w :: rest)
    (hd : decodeCmd w = .error why) : step s = .next (raiseFault .illegalCmd { s with cmd := rest }) := by
  obtain ⟨hr, hc, ht⟩ := h
  rw [step_of_illegal hr hc ht hq hd, takeCommand, hq, List.tail_cons]

/-- Settles O4: the two forms of legality, the fault, and the transfers of length 0. -/
theorem illegalWordsFault : Obligations.IllegalWordsFault := by
  refine ⟨decodeCmd_legal_iff_masks, decodeCmd_illegal_iff_fields, ?_, ⟨_, rfl⟩, ⟨_, rfl⟩, ⟨rfl, ?_⟩, ?_⟩
  · intro s w rest why hready hq hd
    exact ⟨_, hready.step_illegal hq hd, rfl, rfl⟩
  · exact fun v => decodeCmd_eq_ok_iff.mpr rfl
  · exact fun s hactive => ⟨if_pos hactive, fun v => if_pos hactive⟩

end Sys2Proof
end

section
/-! The bit length of R71, and the long transfers of R76. -/

namespace Sys2Proof.Machine

/-! ## The bit length -/

/-- R71. The bit length is CNT[60:0] above three zero bits. -/
theorem bitLength_eq_append (cnt : BitVec 64) : bitLength cnt = cnt.extractLsb' 0 61 ++ (0 : BitVec 3) :=
  BitVec.shiftLeft_eq_concat_of_lt (by decide)

/-- Settles O12: the value, and the rest from the two parts. -/
theorem bitLengthOfCount : Obligations.BitLengthOfCount := by
  intro cnt
  refine ⟨?_, ?_, ?_, fun other h => ?_⟩
  · rw [bitLength, BitVec.toNat_shiftLeft, Nat.shiftLeft_eq]
  · rw [bitLength_eq_append]
    exact BitVec.extractLsb'_append_eq_left
  · rw [bitLength_eq_append]
    exact BitVec.extractLsb'_append_eq_right
  · rw [bitLength_eq_append, bitLength_eq_append, h]

/-! ## FEEDL -/

theorem pieces_nil (fuel : Nat) : pieces fuel [] = [] := by
  cases fuel <;> rfl

theorem pieces_succ {data : List Byte} (fuel : Nat) (h : data ≠ []) :
    pieces (fuel + 1) data = data.take maxLen :: pieces fuel (data.drop maxLen) := if_neg h

/-- The pieces are the data in order, as far as the fuel carries. -/
theorem flatten_pieces (fuel : Nat) (data : List Byte) : (pieces fuel data).flatten = data.take (fuel * maxLen) := by
  induction fuel generalizing data with
  | zero => rw [Nat.zero_mul, List.take_zero]; rfl
  | succ k ih =>
    by_cases h : data = []
    · rw [h, pieces_nil, List.take_nil, List.flatten_nil]
    · rw [pieces_succ k h, List.flatten_cons, ih, Nat.succ_mul, Nat.add_comm, List.take_add]

/-- No piece is longer than one command's LEN can say (R67, R76). -/
theorem length_le_of_mem_pieces {fuel : Nat} {data p : List Byte} (h : p ∈ pieces fuel data) : p.length ≤ maxLen := by
  induction fuel generalizing data with
  | zero => cases h
  | succ k ih =>
    by_cases hd : data = []
    · rw [hd, pieces_nil] at h
      cases h
    · rw [pieces_succ k hd, List.mem_cons] at h
      obtain rfl | h := h
      · exact List.length_take_le _ _
      · exact ih h

/-- The pieces are as few as pieces of 65535 bytes can be, or the fuel runs out. -/
theorem length_pieces (fuel : Nat) (data : List Byte) :
    (pieces fuel data).length = min fuel ((data.length + 65534) / 65535) := by
  induction fuel generalizing data with
  | zero => rw [Nat.zero_min]; rfl
  | succ k ih =>
    by_cases hd : data = []
    · rw [hd, pieces_nil]
      rfl
    · have hpos := List.length_pos_iff.mpr hd
      rw [pieces_succ k hd, List.length_cons, ih, List.length_drop, maxLen]
      omega

theorem map_snd_feedl (data : List Byte) : (feedl data).map Prod.snd = pieces ((data.length + 65534) / 65535) data := by
  rw [feedl, List.map_map]
  exact List.map_id _

/-- Each command of FEEDL is a FEED whose LEN is the length of its payload (R76). -/
theorem feedl_command {data : List Byte} {c : Instr × List Byte} (h : c ∈ feedl data) :
    c.1 = .feed (BitVec.ofNat 16 c.2.length) ∧ c.2.length ≤ maxLen := by
  obtain ⟨p, hp, rfl⟩ := List.mem_map.mp h
  exact ⟨rfl, length_le_of_mem_pieces hp⟩

theorem flatten_feedl (data : List Byte) : ((feedl data).map Prod.snd).flatten = data := by
  rw [map_snd_feedl, flatten_pieces]
  apply List.take_of_length_le
  rw [maxLen]
  omega

theorem length_feedl (data : List Byte) : (feedl data).length = (data.length + 65534) / 65535 := by
  rw [← List.length_map (f := Prod.snd), map_snd_feedl, length_pieces, Nat.min_self]

/-! ## FILLL -/

/-- The COUNTs of FILLL, in order (R76). -/
def filllCounts (count : Nat) : List (BitVec 16) :=
  List.replicate (count / maxLen) (BitVec.ofNat 16 maxLen) ++ [BitVec.ofNat 16 (count % maxLen)]

theorem filll_eq_map (value : Byte) (count : Nat) :
    filll value count = (filllCounts count).map fun n => (.fill value n, []) := by
  rw [filllCounts, List.map_append, List.map_replicate]
  rfl

theorem sum_filllCounts (count : Nat) : ((filllCounts count).map BitVec.toNat).sum = count := by
  have hmax : (BitVec.ofNat 16 maxLen).toNat = maxLen := rfl
  have hrest : (BitVec.ofNat 16 (count % maxLen)).toNat = count % maxLen := by
    rw [BitVec.toNat_ofNat, maxLen]
    omega
  rw [filllCounts, List.map_append, List.map_replicate, hmax, List.sum_append, List.sum_replicate, List.map_singleton,
    hrest, List.sum_singleton, smul_eq_mul, Nat.mul_comm]
  exact Nat.div_add_mod count maxLen

/-- Settles O43: the FEEDs of FEEDL and the FILLs of FILLL. -/
theorem longTransfersAreCut : Obligations.LongTransfersAreCut := by
  refine ⟨fun data => ⟨flatten_feedl data, length_feedl data, fun c hc => ?_⟩,
    fun value count => ⟨filllCounts count, filll_eq_map value count, sum_filllCounts count⟩⟩
  obtain ⟨hfeed, hlen⟩ := feedl_command hc
  refine ⟨_, hfeed, ?_⟩
  rw [BitVec.toNat_ofNat, Nat.mod_eq_of_lt (hlen.trans_lt (by decide))]

end Sys2Proof.Machine
end

section
/-! The constant tables: T, the sum of its words and the IV, and the closed forms and printed tables of S and K. -/

namespace Sys2Proof.Machine

/-! ## T -/

/-- Reading T by the step index 0 to 63 gives the whole ROM, in order (R42, R81). -/
theorem map_tableT : (List.range 64).map (fun n => tableT (BitVec.ofNat 6 n)) = tTable := by
  refine List.ext_getElem rfl fun n _ hn => ?_
  have hindex : (BitVec.ofNat 6 n).toNat = n := Nat.mod_eq_of_lt hn
  rw [List.getElem_map, List.getElem_range, tableT, hindex, List.getD_eq_getElem _ _ hn]

/-- The sum of the 64 words mod 2^32 (95_test_vectors.md section 2.3). -/
theorem sum_tTable : tTable.foldl (· + ·) 0 = 0x27F3A0BC := by
  simp [tTable, tRound0, tRound1, tRound2, tRound3]

/-- Settles O6: the ROM read in order, its sum, and the constants as they stand. -/
theorem roundConstants : Obligations.RoundConstants :=
  ⟨map_tableT, rfl, sum_tTable, rfl, rfl, rfl, rfl, rfl, rfl, rfl, rfl, rfl, rfl, rfl⟩

/-! ## S -/

/-- R82. The row of a round is SROW read by the round's number. -/
theorem sRow_eq_getD (r : BitVec 2) :
    sRow r = [[7, 12, 17, 22], [5, 9, 14, 20], [4, 11, 16, 23], [6, 10, 15, 21]].getD r.toNat [] := by
  revert r
  decide

theorem length_sRow (r : BitVec 2) : (sRow r).length = 4 := by
  revert r
  decide

theorem sRow_bounds (r : BitVec 2) : ∀ n ∈ sRow r, 4 ≤ n ∧ n ≤ 23 := by
  revert r
  decide

/-- Every rotation amount stands in the row of its round, as i mod 4 is inside the row. -/
theorem tableS_mem_sRow (i : BitVec 6) : tableS i ∈ sRow (fieldRound i) := by
  have hpos : i.toNat % 4 < (sRow (fieldRound i)).length := by
    rw [length_sRow]
    exact Nat.mod_lt _ (by decide)
  rw [tableS, List.getD_eq_getElem _ _ hpos]
  exact List.getElem_mem hpos

/-! ## K -/

/-- A step index is in round r exactly when its number divided by 16 is r (R68). -/
theorem fieldRound_eq_iff {i : BitVec 6} {r : BitVec 2} : fieldRound i = r ↔ i.toNat / 16 = r.toNat := by
  rw [← BitVec.toNat_inj, fieldRound_toNat]

/-- R83. The closed form of K over the number of the step. -/
theorem tableK_eq_closed (i : BitVec 6) : tableK i =
    if i.toNat / 16 = 0 then i.toNat else if i.toNat / 16 = 1 then (5 * i.toNat + 1) % 16
    else if i.toNat / 16 = 2 then (3 * i.toNat + 5) % 16 else (7 * i.toNat) % 16 := by
  simp only [tableK, fieldRound_eq_iff]
  rfl

/-- R83. The closed form of K at position j of round r. -/
theorem tableK_at (r : Fin 4) (j : Fin 16) : tableK (BitVec.ofNat 6 (16 * r.val + j.val)) =
    if r.val = 0 then 16 * r.val + j.val else if r.val = 1 then (5 * (16 * r.val + j.val) + 1) % 16
    else if r.val = 2 then (3 * (16 * r.val + j.val) + 5) % 16 else (7 * (16 * r.val + j.val)) % 16 := by
  have hindex : (BitVec.ofNat 6 (16 * r.val + j.val)).toNat = 16 * r.val + j.val := Nat.mod_eq_of_lt (by omega)
  have hround : (16 * r.val + j.val) / 16 = r.val := by omega
  rw [tableK_eq_closed, hindex, hround]

/-- R83. In each round K is an affine map of the position mod 16 whose factor is odd: 1, 5, 3 and 7. -/
theorem tableK_affine (r : Fin 4) : ∃ a b : Nat, Nat.Coprime 16 a ∧
    ∀ j : Fin 16, tableK (BitVec.ofNat 6 (16 * r.val + j.val)) = (a * j.val + b) % 16 := by
  simp only [tableK_at]
  match r with
  | 0 => exact ⟨1, 0, by decide, fun j => show 16 * 0 + j.val = (1 * j.val + 0) % 16 by omega⟩
  | 1 => exact ⟨5, 1, by decide, fun j => show (5 * (16 * 1 + j.val) + 1) % 16 = (5 * j.val + 1) % 16 by omega⟩
  | 2 => exact ⟨3, 5, by decide, fun j => show (3 * (16 * 2 + j.val) + 5) % 16 = (3 * j.val + 5) % 16 by omega⟩
  | 3 => exact ⟨7, 0, by decide, fun j => show (7 * (16 * 3 + j.val)) % 16 = (7 * j.val + 0) % 16 by omega⟩

/-- A factor prime to 16 can be cancelled mod 16, so an affine map with it takes every value below 16 once. -/
theorem existsUnique_affine_mod {a : Nat} (ha : Nat.Coprime 16 a) (b : Nat) (k : Fin 16) :
    ∃! j : Fin 16, (a * j.val + b) % 16 = k.val := by
  have hinj : Function.Injective fun j : Fin 16 => Fin.ofNat 16 (a * j.val + b) := by
    intro j j' h
    have hmul : a * j.val ≡ a * j'.val [MOD 16] := Nat.ModEq.add_right_cancel' b (Fin.ext_iff.mp h)
    exact Fin.ext ((Nat.ModEq.cancel_left_of_coprime ha hmul).eq_of_lt_of_lt j.isLt j'.isLt)
  simpa only [Fin.ext_iff, Fin.val_ofNat] using (Finite.injective_iff_bijective.mp hinj).existsUnique k

/-- Settles O7: S through the rows of SROW, K through its closed form, which is affine in each round. -/
theorem rotationsAndPermutation : Obligations.RotationsAndPermutation := by
  refine ⟨fun i => ?_, fun i => sRow_bounds _ _ (tableS_mem_sRow i), by decide, tableK_eq_closed, by decide,
    fun r k => ?_⟩
  · rw [tableS, sRow_eq_getD, fieldRound_toNat]
  · obtain ⟨a, b, ha, haffine⟩ := tableK_affine r
    simpa only [haffine] using existsUnique_affine_mod ha b k

end Sys2Proof.Machine
end

section
/-! The auxiliary functions F, G, H and I, bit by bit. -/

namespace Sys2Proof.Machine

theorem ones_eq_allOnes : (0xFFFFFFFF : Word) = BitVec.allOnes 32 := rfl

/-! ## F and G -/

/-- R92. F is a multiplexer with b as the select. -/
theorem getLsbD_auxF (b c d : Word) (n : Nat) :
    (auxF b c d).getLsbD n = if b.getLsbD n then c.getLsbD n else d.getLsbD n := by
  by_cases hn : n < 32
  · rw [auxF, BitVec.getLsbD_or, BitVec.getLsbD_and, BitVec.getLsbD_and, BitVec.getLsbD_not]
    cases b.getLsbD n <;> simp [hn]
  · simp [BitVec.getLsbD_of_ge _ _ (Nat.le_of_not_lt hn)]

/-- R92. The two terms of F have no bit in common: one is under b, the other under its complement. -/
theorem auxF_terms_disjoint (b c d : Word) : (b &&& c) &&& (~~~b &&& d) = 0 := by
  apply BitVec.eq_of_getLsbD_eq
  intro n hn
  cases hb : b.getLsbD n <;> simp [hb]

/-- R92. As the two terms are disjoint, their exclusive OR is F too. -/
theorem auxF_eq_xor (b c d : Word) : auxF b c d = (b &&& c) ^^^ (~~~b &&& d) := by
  apply BitVec.eq_of_getLsbD_eq
  intro n hn
  rw [getLsbD_auxF, BitVec.getLsbD_xor, BitVec.getLsbD_and, BitVec.getLsbD_and, BitVec.getLsbD_not]
  cases b.getLsbD n <;> simp [hn]

/-- R92. As the two terms are disjoint, no carry arises in their sum, which is F too. -/
theorem auxF_eq_add (b c d : Word) : auxF b c d = (b &&& c) + (~~~b &&& d) :=
  (BitVec.add_eq_or_of_and_eq_zero _ _ (auxF_terms_disjoint b c d)).symm

theorem auxF_zero (c d : Word) : auxF 0 c d = d := by
  rw [auxF, BitVec.ofNat_eq_ofNat, BitVec.zero_and, BitVec.zero_or, BitVec.not_zero, BitVec.allOnes_and]

theorem auxF_ones (c d : Word) : auxF 0xFFFFFFFF c d = c := by
  rw [auxF, ones_eq_allOnes, BitVec.allOnes_and, BitVec.not_allOnes, BitVec.zero_and, BitVec.or_zero]

theorem auxF_same (b c : Word) : auxF b c c = c := by
  apply BitVec.eq_of_getLsbD_eq
  intro n _
  rw [getLsbD_auxF, ite_self]

/-- R93. G is F with d as the select. -/
theorem auxG_eq_auxF (b c d : Word) : auxG b c d = auxF d b c := by
  rw [auxG, auxF, BitVec.and_comm b, BitVec.and_comm c]

/-- Settles O8: F as a multiplexer with disjoint terms, and G as F with its operands turned. -/
theorem functionsFAndG : Obligations.FunctionsFAndG := by
  refine ⟨fun b c d => ⟨rfl, auxF_terms_disjoint b c d, auxF_eq_xor b c d, auxF_eq_add b c d, getLsbD_auxF b c d,
    auxF_zero c d, auxF_ones c d, auxF_same b c⟩, fun b c d => ⟨rfl, auxG_eq_auxF b c d, ?_, ?_, ?_⟩, by decide,
    by decide⟩
  · rw [auxG_eq_auxF]
    exact getLsbD_auxF d b c
  · rw [auxG_eq_auxF]
    exact auxF_zero b c
  · rw [auxG_eq_auxF]
    exact auxF_ones b c

/-! ## H and I -/

/-- R94. H is the bitwise parity. -/
theorem getLsbD_auxH (b c d : Word) (n : Nat) :
    (auxH b c d).getLsbD n = ((b.getLsbD n ^^ c.getLsbD n) ^^ d.getLsbD n) := by
  rw [auxH, BitVec.getLsbD_xor, BitVec.getLsbD_xor]

theorem auxH_same (b d : Word) : auxH b b d = d := by
  rw [auxH, BitVec.xor_self, BitVec.zero_xor]

/-- R95. I bit by bit: within the 32 bits the complement of d has the opposite bit. -/
theorem getLsbD_auxI (b c d : Word) {n : Nat} (hn : n < 32) :
    (auxI b c d).getLsbD n = (c.getLsbD n ^^ (b.getLsbD n || !d.getLsbD n)) := by
  rw [auxI, BitVec.getLsbD_xor, BitVec.getLsbD_or, BitVec.getLsbD_not, decide_eq_true hn, Bool.true_and]

/-- R95. Where the OR gives all ones, I is the complement of c. -/
theorem auxI_eq_not {b d : Word} (h : b ||| ~~~d = BitVec.allOnes 32) (c : Word) : auxI b c d = ~~~c := by
  rw [auxI, h, BitVec.xor_allOnes]

theorem auxI_of_d_zero (b c : Word) : auxI b c 0 = ~~~c := auxI_eq_not BitVec.or_allOnes c

theorem auxI_of_b_ones (c d : Word) : auxI 0xFFFFFFFF c d = ~~~c := auxI_eq_not BitVec.allOnes_or c

theorem auxI_of_b_zero_d_ones (c : Word) : auxI 0 c 0xFFFFFFFF = c := BitVec.xor_zero

/-- Settles O9: the parity, and I by what its OR gives. -/
theorem functionsHAndI : Obligations.FunctionsHAndI :=
  ⟨fun b c d => ⟨rfl, getLsbD_auxH b c d, auxH_same b d, rfl, rfl⟩,
    fun b c d => ⟨rfl, fun _ hn => getLsbD_auxI b c d hn, rfl, auxI_of_d_zero b c, auxI_of_b_ones c d,
      auxI_of_b_zero_d_ones c⟩, by decide, by decide⟩

end Sys2Proof.Machine
end

section
/-! The step micro-operations (STEP_F to STEP_I) and COMPRESS. -/

namespace Sys2Proof.Machine

/-! ## STEP(i) -/

/-- R68. The number of a step index is 16 times its round plus its position. -/
theorem toNat_stepIndex (r : BitVec 2) (j : BitVec 4) : (stepIndex r j).toNat = 16 * r.toNat + j.toNat := by
  have hround := fieldRound_toNat (stepIndex r j)
  have hpos := congrArg BitVec.toNat (fieldPos_eq_ofNat (stepIndex r j))
  rw [fieldRound_stepIndex] at hround
  rw [fieldPos_stepIndex, BitVec.toNat_ofNat] at hpos
  omega

/-- R82. The rotation of a step is the entry of its round's row at its position mod 4. -/
theorem tableS_stepIndex (r : BitVec 2) (j : BitVec 4) : tableS (stepIndex r j) = (sRow r).getD (j.toNat % 4) 0 := by
  have hcol : (stepIndex r j).toNat % 4 = j.toNat % 4 := by
    rw [toNat_stepIndex]
    omega
  rw [tableS, fieldRound_stepIndex, hcol]

/-- R83. The message word of a step by its round and its position. -/
theorem tableK_stepIndex (r : BitVec 2) (j : BitVec 4) : tableK (stepIndex r j) =
    if r = 0 then 16 * r.toNat + j.toNat else if r = 1 then (5 * (16 * r.toNat + j.toNat) + 1) % 16
    else if r = 2 then (3 * (16 * r.toNat + j.toNat) + 5) % 16 else (7 * (16 * r.toNat + j.toNat)) % 16 := by
  rw [tableK, fieldRound_stepIndex, toNat_stepIndex]

/-- R104. The index advances by one, and stays at 63, its greatest number. -/
theorem nextIndex_eq_ofNat (i : BitVec 6) : (if i = 63 then i else i + 1) = BitVec.ofNat 6 (min 63 (i.toNat + 1)) := by
  split
  next h => rw [h]; rfl
  next h =>
    have hlt : i.toNat < 63 := by bv_omega
    rw [Nat.min_eq_right (by omega), BitVec.ofNat_add, BitVec.ofNat_toNat, BitVec.setWidth_eq]
    rfl

/-- R104. STEP(i), field by field. -/
theorem stepAt_eq (i : BitVec 6) (s : State) : stepAt i s = { s with
    a := s.d
    b := s.b + rotl32 (s.a + auxOf (fieldRound i) s.b s.c s.d + tableT i + s.messageWord (tableK i)) (tableS i)
    c := s.b
    d := s.c
    i := if i = 63 then i else i + 1 } := rfl

/-- R96 to R99, R104. STEP at position j of round r: the function and the rotations of the round, the message word k and
the next index. -/
theorem stepAt_stepIndex {r : BitVec 2} {j : BitVec 4} {k next : Nat} (hk : tableK (stepIndex r j) = k)
    (hnext : min 63 (16 * r.toNat + j.toNat + 1) = next) (s : State) : stepAt (stepIndex r j) s = { s with
      a := s.d
      b := s.b + rotl32 (s.a + auxOf r s.b s.c s.d + tableT (stepIndex r j) + s.messageWord k)
        ((sRow r).getD (j.toNat % 4) 0)
      c := s.b
      d := s.c
      i := BitVec.ofNat 6 next } := by
  rw [stepAt_eq, fieldRound_stepIndex, hk, tableS_stepIndex, nextIndex_eq_ofNat, toNat_stepIndex, hnext]

/-- Settles O13: the selected micro-operation is STEP of the index. -/
theorem stepDataPath : Obligations.StepDataPath := fun i s => by
  rw [exec_decodeStep, stepAt_eq]

/-- Settles O14: STEP at position j of round 0. -/
theorem stepFResult : Obligations.StepFResult := by
  intro j s
  have hk : tableK (stepIndex 0 j) = j.toNat := (tableK_stepIndex 0 j).trans (Nat.zero_add _)
  have hnext : min 63 (16 * 0 + j.toNat + 1) = j.toNat + 1 := by omega
  exact ⟨decodeStep_eq_iff.mpr rfl, congrArg Host.Outcome.next (stepAt_stepIndex hk hnext s)⟩

/-- Settles O15: STEP at position j of round 1. -/
theorem stepGResult : Obligations.StepGResult := by
  intro j s
  have hnext : min 63 (16 * 1 + j.toNat + 1) = 16 + j.toNat + 1 := by omega
  exact ⟨decodeStep_eq_iff.mpr rfl, congrArg Host.Outcome.next (stepAt_stepIndex (tableK_stepIndex 1 j) hnext s)⟩

/-- Settles O16: STEP at position j of round 2. -/
theorem stepHResult : Obligations.StepHResult := by
  intro j s
  have hnext : min 63 (16 * 2 + j.toNat + 1) = 32 + j.toNat + 1 := by omega
  exact ⟨decodeStep_eq_iff.mpr rfl, congrArg Host.Outcome.next (stepAt_stepIndex (tableK_stepIndex 2 j) hnext s)⟩

/-- Settles O17: STEP at position j of round 3, whose last position is the last step. -/
theorem stepIResult : Obligations.StepIResult := by
  intro j s
  have hnext : min 63 (16 * 3 + j.toNat + 1) = if j = 15 then 63 else 48 + j.toNat + 1 := by
    split
    next h => rw [h]; rfl
    next h =>
      have hlt : j.toNat < 15 := by bv_omega
      omega
  exact ⟨decodeStep_eq_iff.mpr rfl, congrArg Host.Outcome.next (stepAt_stepIndex (tableK_stepIndex 3 j) hnext s)⟩

/-! ## COMPRESS -/

/-- Settles O18: the parts of `compress_eq`. -/
theorem compressAddsTheBlock : Obligations.CompressAddsTheBlock := fun s =>
  ⟨compress s, rfl, compress_chain s, congrArg Fin.val (compress_off s), compress_buf s, compress_cnt s, compress_phase s,
    compress_err s, compress_errcode s, compress_transfer s, compress_resetIn s, compress_cmd s, compress_din s⟩

/-- Inside a compression, the machine runs the steps from index 63 - n to the last one, and then closes (R100, R102). -/
theorem run_eq_endCompress_runSteps (n : Nat) {s : State} (hr : s.resetIn = false) (hc : s.compressing = true)
    (hi : s.i.toNat + n = 63) : core.run (n + 1) s = .next (runSteps (n + 1) s).endCompress := by
  induction n generalizing s with
  | zero =>
    have hlast : s.i = 63 := BitVec.eq_of_toNat_eq hi
    rw [run_succ_of_step 0 (step_of_micro hr hc), run_zero, closeStep, if_pos hlast]
    rfl
  | succ n ih =>
    have hnot : s.i ≠ 63 := by bv_omega
    have hsucc : (stepAt s.i s).i = s.i + 1 := if_neg hnot
    have hnext : (stepAt s.i s).i.toNat + n = 63 := by bv_omega
    rw [run_succ_of_step (n + 1) (step_of_micro hr hc), closeStep, if_neg hnot, ih (s := stepAt s.i s) hr hc hnext]
    rfl

/-- Settles O19: the 64 steps from index 0, by induction over the steps that remain. -/
theorem sixtyFourMicroOperationsAreCompress : Obligations.SixtyFourMicroOperationsAreCompress :=
  fun _ hr => run_eq_endCompress_runSteps 63 hr rfl rfl

end Sys2Proof.Machine
end

section
/-! INIT and PUSHBYTE, the two operations of the StreamEngine that no source feeds. -/

namespace Sys2Proof.Machine

/-- Settles O20: a second INIT writes what the first one wrote. -/
theorem initResult : Obligations.InitResult :=
  ⟨decodeCmd_eq_ok_iff.mpr (by decide), fun _ => ⟨_, rfl, rfl, rfl, rfl⟩⟩

theorem State.bufferFull_iff {s : State} : s.bufferFull = true ↔ s.off.val = 64 := decide_eq_true_iff

/-- PUSHBYTE of a byte that does not fill the buffer is its store (R111). -/
theorem pushByte_eq_storeByte (v : Byte) {s : State} (h : s.off.val < 63) : pushByte s v = s.storeByte v := by
  have hroom : ¬ (s.storeByte v).bufferFull = true := by
    rw [State.bufferFull_iff, storeByte_eq s v (by omega)]
    show s.off.val + 1 ≠ 64
    omega
  exact if_neg hroom

/-- Within its precondition the instruction completes (R111). -/
theorem exec_pushbyte (v : Byte) {s : State} (h : s.off.val ≤ 63) : exec (.pushbyte v) s = .next (pushByte s v) :=
  if_neg fun hfull => by
    have := State.bufferFull_iff.mp hfull
    omega

/-- Settles O21: below 63 PUSHBYTE is the store, and at 63 it does what `Pushed` says of one byte, which fills a block. -/
theorem pushByteStores : Obligations.PushByteStores := by
  constructor
  · intro v s h
    refine ⟨_, exec_pushbyte v (by omega), ?_⟩
    rw [pushByte_eq_storeByte v h, storeByte_eq s v (by omega)]
    exact ⟨rfl, Memory.read_write_same .., fun addr ha => Memory.read_write_other _ v ha⟩
  · intro v s h
    have hp := pushByte_pushed s v (by omega)
    have hpending : s.pendingBytes = (List.range 63).map s.bufByte := by rw [State.pendingBytes, h]
    have hblock : chainBlocks 1 s.chain (s.pendingBytes ++ [v]) = compressBlock s.chain (s.pendingBytes ++ [v]) := by
      rw [chainBlocks, chainBlocks, List.take_of_length_le (by simp [h])]
    refine ⟨_, exec_pushbyte v (by omega), ?_, ?_, ?_, ?_, hp.cnt, hp.phase, hp.err, hp.errcode, hp.transfer,
      hp.resetIn, hp.cmd, hp.din⟩
    · rw [← hpending, ← hblock, hp.chain, h, List.length_singleton]
    · rw [hp.offset, h, List.length_singleton]
    · have hstored := hp.stored 0 Nat.zero_lt_one (Nat.le_add_left ..)
      rwa [h] at hstored
    · intro addr ha
      refine hp.kept addr fun m hm => ?_
      rw [List.length_singleton] at hm
      omega

/-- Settles O22: both instructions test their range first. -/
theorem microOperationsStopOutOfRange : Obligations.MicroOperationsStopOutOfRange := by
  constructor
  · intro v s h
    exact if_pos (State.bufferFull_iff.mpr h)
  · intro n bits s h
    have hno : ¬ (ByteSrc.lengthField bits).supplies n = true := by simpa [ByteSrc.supplies] using h
    exact if_neg hno

end Sys2Proof.Machine
end

section
/-! FEEDBYTES from any OFF: a full buffer is compressed first (R112), and from there on the bytes are fed. -/

namespace Sys2Proof.Machine

/-! ## The defensive compression -/

theorem compressIfFull_of_full {s : State} (h : s.off.val = 64) : compressIfFull s = compress s :=
  if_pos (State.bufferFull_iff.mpr h)

/-- R112. After the defensive compression OFF is in PUSHBYTE's range. -/
theorem compressIfFull_offset_le (s : State) : (compressIfFull s).off.val ≤ 63 := by
  by_cases h : s.off.val = 64
  · simp [compressIfFull_of_full h]
  · rw [compressIfFull_of_le s (by omega)]
    omega

theorem compressIfFull_unpushed (s : State) : Unpushed s (compressIfFull s) := by
  rw [compressIfFull]
  split
  · constructor <;> simp
  · constructor <;> rfl

theorem compressIfFull_withFrame (cnt : BitVec 64) (phase : Phase) (transfer : Option Transfer) (cmd : List Word)
    (din : List Byte) (s : State) :
    compressIfFull (s.withFrame cnt phase transfer cmd din) = (compressIfFull s).withFrame cnt phase transfer cmd din := by
  have hf : (s.withFrame cnt phase transfer cmd din).bufferFull = s.bufferFull := rfl
  rw [compressIfFull, compressIfFull, hf]
  split
  · exact compress_withFrame ..
  · rfl

/-- Of the fields that no push changes, counting writes CNT only. -/
theorem Unpushed.withFrame_count {s t : State} (h : Unpushed s t) (n : BitVec 16) :
    t.withFrame (s.cnt + n.setWidth 64) s.phase s.transfer s.cmd s.din = t.count n := by
  rw [State.withFrame, State.count, ← h.cnt, ← h.phase, ← h.transfer, ← h.cmd, ← h.din]

/-- Of the fields that no push changes, the host's supply writes DIN only. -/
theorem Unpushed.withFrame_din {s t : State} (h : Unpushed s t) (din : List Byte) :
    t.withFrame s.cnt s.phase s.transfer s.cmd din = { t with din := din } := by
  rw [State.withFrame, ← h.cnt, ← h.phase, ← h.transfer, ← h.cmd]

/-- Counting the bytes and compressing a full buffer may be done in either order (R113). -/
theorem compressIfFull_count (n : BitVec 16) (s : State) : compressIfFull (s.count n) = (compressIfFull s).count n := by
  rw [← (compressIfFull_unpushed s).withFrame_count n, ← compressIfFull_withFrame]
  rfl

/-- The defensive compression does not depend on DIN. -/
theorem compressIfFull_setDin (din : List Byte) (s : State) :
    compressIfFull { s with din := din } = { compressIfFull s with din := din } := by
  rw [← (compressIfFull_unpushed s).withFrame_din din, ← compressIfFull_withFrame]
  rfl

/-- R112. FEEDBYTES of at least one byte goes on as from the state after the defensive compression. -/
theorem feedBytes_compressIfFull {n : BitVec 16} (hn : n ≠ 0) (src : ByteSrc) (s : State) :
    feedBytes n src (compressIfFull s) = feedBytes n src s := by
  have hidem : compressIfFull ((compressIfFull s).count n) = compressIfFull (s.count n) := by
    rw [compressIfFull_count n s]
    exact compressIfFull_of_le _ (compressIfFull_offset_le s)
  cases src <;> simp only [feedBytes, if_neg hn, hidem]

/-- R112. FINAL, whose first byte is the marker, compresses a full buffer first. -/
theorem finalize_compressIfFull (s : State) : finalize (compressIfFull s) = finalize s := by
  have hmarker : padMarker (compressIfFull s) = padMarker s := feedBytes_compressIfFull (by decide) _ s
  rw [finalize, finalize, hmarker, (compressIfFull_unpushed s).cnt]

/-! ## The commands in phase ACTIVE -/

theorem exec_feed_active (len : BitVec 16) {s : State} (h : s.phase = .active) :
    exec (.feed len) s = .next (feedBytes len .din s) := if_pos h

theorem exec_fill_active (v : Byte) (n : BitVec 16) {s : State} (h : s.phase = .active) :
    exec (.fill v n) s = .next (feedBytes n (.const v) s) := if_pos h

theorem exec_final_active {s : State} (h : s.phase = .active) : exec .final s = .next (finalize s) := if_pos h

/-- Settles O24: each of these is FEEDBYTES, for which `compressIfFull` makes no difference. -/
theorem fullBufferIsCompressedFirst : Obligations.FullBufferIsCompressedFirst := by
  intro s hfull
  have hc : compressIfFull s = compress s := compressIfFull_of_full hfull
  have hfeed {n : BitVec 16} (hn : n ≠ 0) (src : ByteSrc) : feedBytes n src s = feedBytes n src (compress s) := by
    rw [← hc, feedBytes_compressIfFull hn]
  refine ⟨fun n src hn => ?_, fun ha n hn => ⟨?_, fun v => ?_⟩, fun ha => ?_⟩
  · simp only [exec, execFeedbytes, hfeed hn]
  · rw [exec_feed_active n ha, exec_feed_active n (by simpa using ha), hfeed hn]
  · rw [exec_fill_active v n ha, exec_fill_active v n (by simpa using ha), hfeed hn]
  · rw [exec_final_active ha, exec_final_active (by simpa using ha), ← hc, finalize_compressIfFull]

/-- There is no payload to wait for (R114). -/
theorem pullDiscard_zero (s : State) : pullDiscard 0 s = raiseFault (feedFault s.phase) s := if_neg (Nat.not_lt_zero _)

/-- Settles O27: FEEDBYTES of no byte is nothing; outside phase ACTIVE both commands fault at once. -/
theorem zeroLengthIsNoOp : Obligations.ZeroLengthIsNoOp := by
  intro s
  constructor
  · exact fun ha => ⟨exec_feed_active 0 ha, fun v => exec_fill_active v 0 ha⟩
  · intro ha
    have hfeed : exec (.feed 0) s = .next (pullDiscard 0 s) := if_neg ha
    exact ⟨pullDiscard_zero s ▸ hfeed, fun v => if_neg ha⟩

end Sys2Proof.Machine

namespace Sys2Proof

open Machine

/-! ## What FEEDBYTES moves -/

/-- FEEDBYTES with its bytes all there, OFF being at most 63: it counts them and pushes them (R113). -/
theorem Machine.feedBytes_pushed {n : BitVec 16} {src : ByteSrc} {s : State} (ho : s.off.val ≤ 63)
    (hdin : src = .din → s.transfer = none ∧ n.toNat ≤ s.din.length) :
    Pushed (bytesMoved n src s) { s with cnt := s.cnt + n.setWidth 64, din := dinAfter n src s } (feedBytes n src s) := by
  cases src with
  | din =>
    obtain ⟨hheld, hthere⟩ := hdin rfl
    have hlen : (s.din.take n.toNat).length = n.toNat := List.length_take_of_le hthere
    have hp := ({ s with din := s.din.drop n.toNat } : State).fed_pushed (s.din.take n.toNat) ho
    rw [hlen, BitVec.ofNat_toNat] at hp
    rwa [feedBytes_din_eq_fed ho hheld (List.take_append_drop n.toNat s.din).symm hlen]
  | const v =>
    rw [feedBytes_const n v s ho]
    exact pushAll_pushed _ _ ho
  | lengthField bits =>
    rw [feedBytes_lengthField n bits s ho]
    exact pushAll_pushed _ _ ho

/-- Settles O23: a source that has the bytes makes the instruction complete. -/
theorem feedBytesMoves : Obligations.FeedBytesMoves :=
  fun _ _ _ ho hheld hsupplies hthere => ⟨_, if_pos hsupplies, feedBytes_pushed ho fun hsrc => ⟨hheld, hthere hsrc⟩⟩

/-- Settles O25: FEED is FEEDBYTES from DIN. -/
theorem feedMovesThePayload : Obligations.FeedMovesThePayload :=
  fun len _ ha ho hheld hthere =>
    ⟨_, exec_feed_active len ha, feedBytes_pushed (src := .din) ho fun _ => ⟨hheld, hthere⟩⟩

/-- Settles O26: FILL is FEEDBYTES of copies. -/
theorem fillMovesTheCopies : Obligations.FillMovesTheCopies :=
  fun value count _ ha ho => ⟨_, exec_fill_active value count ha, feedBytes_pushed (src := .const value) ho nofun⟩

/-! ## Transfers compared -/

/-- Feeding does not depend on DIN. -/
theorem Machine.State.fed_setDin (s : State) (bytes : List Byte) (din : List Byte) :
    ({ s with din := din } : State).fed bytes = { s.fed bytes with din := din } := by
  have hpush : pushAll bytes { s with din := din } = { pushAll bytes s with din := din } := by
    rw [← (pushAll_unpushed bytes s).withFrame_din din, ← pushAll_withFrame]
    rfl
  rw [State.fed, hpush, State.fed]

/-- R116, OFF being at most 63: what the first transfer takes from DIN and what the second one takes are fed one after the other. -/
theorem Machine.feedBytes_din_add_of_le {n m : BitVec 16} {s : State} (ho : s.off.val ≤ 63) (hheld : s.transfer = none)
    (hfit : n.toNat + m.toNat < 2 ^ 16) (hthere : n.toNat + m.toNat ≤ s.din.length) :
    feedBytes m .din (feedBytes n .din s) = feedBytes (n + m) .din s := by
  obtain ⟨xs, ys, rest, hdin, hxs, hys⟩ :
      ∃ xs ys rest, s.din = xs ++ (ys ++ rest) ∧ xs.length = n.toNat ∧ ys.length = m.toNat :=
    ⟨s.din.take n.toNat, (s.din.drop n.toNat).take m.toNat, (s.din.drop n.toNat).drop m.toNat,
      by simp only [List.take_append_drop], by rw [List.length_take]; omega,
      by rw [List.length_take, List.length_drop]; omega⟩
  have hboth : (xs ++ ys).length = (n + m).toNat := by
    rw [List.length_append, hxs, hys, BitVec.toNat_add_of_lt hfit]
  obtain ⟨t, ht⟩ : ∃ t, t = ({ s with din := ys ++ rest } : State).fed xs := ⟨_, rfl⟩
  have hp := ({ s with din := ys ++ rest } : State).fed_pushed xs ho
  rw [← ht] at hp
  have hrest : { t with din := rest } = ({ s with din := rest } : State).fed xs := by
    rw [ht]
    exact (State.fed_setDin { s with din := ys ++ rest } xs rest).symm
  calc feedBytes m .din (feedBytes n .din s)
    _ = feedBytes m .din t := by rw [ht, feedBytes_din_eq_fed ho hheld hdin hxs]
    _ = ({ t with din := rest } : State).fed ys :=
        feedBytes_din_eq_fed hp.offset_le (hp.transfer.trans hheld) hp.din hys
    _ = (({ s with din := rest } : State).fed xs).fed ys := by rw [hrest]
    _ = ({ s with din := rest } : State).fed (xs ++ ys) := State.fed_fed _ xs ys ho
    _ = feedBytes (n + m) .din s :=
        (feedBytes_din_eq_fed ho hheld (hdin.trans (List.append_assoc xs ys rest).symm) hboth).symm

/-- R116. Where transfers from DIN are cut makes no difference. -/
theorem Machine.feedBytes_din_add {n m : BitVec 16} {s : State} (hheld : s.transfer = none)
    (hfit : n.toNat + m.toNat < 2 ^ 16) (hthere : n.toNat + m.toNat ≤ s.din.length) :
    feedBytes m .din (feedBytes n .din s) = feedBytes (n + m) .din s := by
  by_cases hn : n = 0
  · subst hn
    simp
  · have hne : n + m ≠ 0 := by bv_omega
    have hk := compressIfFull_unpushed s
    rw [← feedBytes_compressIfFull hn, ← feedBytes_compressIfFull hne]
    exact feedBytes_din_add_of_le (compressIfFull_offset_le s) (hk.transfer.trans hheld) hfit (by rwa [hk.din])

/-- Settles O28: both FEEDs run in phase ACTIVE, which FEEDBYTES does not leave. -/
theorem twoFeedsAreOne : Obligations.TwoFeedsAreOne := by
  intro n m s ha hheld hfit hthere
  have hactive : (feedBytes n .din s).phase = .active := (feedBytes_controlKept n .din s).phase.trans ha
  refine ⟨_, _, exec_feed_active n ha, exec_feed_active m hactive, ?_⟩
  rw [exec_feed_active (n + m) ha, feedBytes_din_add hheld hfit hthere]

/-- R118, OFF being at most 63: both feed the copies. -/
theorem Machine.feedBytes_din_replicate_of_le (n : BitVec 16) (v : Byte) {s : State} (ho : s.off.val ≤ 63)
    (hheld : s.transfer = none) :
    feedBytes n .din { s with din := List.replicate n.toNat v ++ s.din } = feedBytes n (.const v) s := by
  rw [feedBytes_const_eq_fed n v s ho]
  exact feedBytes_din_eq_fed (s := { s with din := List.replicate n.toNat v ++ s.din }) ho hheld rfl List.length_replicate

/-- R118. FEEDBYTES of copies is FEEDBYTES from a DIN on which the copies stand first. -/
theorem Machine.feedBytes_din_replicate (n : BitVec 16) (v : Byte) {s : State} (hheld : s.transfer = none) :
    feedBytes n .din { s with din := List.replicate n.toNat v ++ s.din } = feedBytes n (.const v) s := by
  by_cases hn : n = 0
  · subst hn
    simp
  · have hk := compressIfFull_unpushed s
    calc feedBytes n .din { s with din := List.replicate n.toNat v ++ s.din }
      _ = feedBytes n .din (compressIfFull { s with din := List.replicate n.toNat v ++ s.din }) :=
          (feedBytes_compressIfFull hn ..).symm
      _ = feedBytes n .din { compressIfFull s with din := List.replicate n.toNat v ++ (compressIfFull s).din } := by
          rw [compressIfFull_setDin, hk.din]
      _ = feedBytes n (.const v) (compressIfFull s) :=
          feedBytes_din_replicate_of_le n v (compressIfFull_offset_le s) (hk.transfer.trans hheld)
      _ = feedBytes n (.const v) s := feedBytes_compressIfFull hn ..

/-- Settles O29: in phase ACTIVE both commands are FEEDBYTES. -/
theorem fillIsFeedOfCopies : Obligations.FillIsFeedOfCopies := by
  intro v n s ha hheld
  refine ⟨_, exec_fill_active v n ha, ?_⟩
  rw [← feedBytes_din_replicate n v hheld]
  exact exec_feed_active n ha

end Sys2Proof
end

section
/-! FINAL (R131 to R135): the trailer it pushes, and the state it leaves of a core that holds a message. -/

namespace Sys2Proof

open Machine

/-! ## The trailer -/

/-- The number of bytes that CNT counts in FINAL: the marker, the zeros and the length field (R133 to R135). -/
theorem trailer_length_eq (s : State) : (trailer s).length = 1 + zeroCount s.off.val + 8 := by
  rw [trailer_length]
  omega

/-- Pushing does not read PHASE. -/
theorem Pushed.setPhase {bytes : List Byte} {s t : State} (h : Pushed bytes s t) (p : Phase) :
    Pushed bytes { s with phase := p } { t with phase := p } :=
  ⟨h.offset, h.blocks, h.chain, h.pending, h.stored, h.kept, h.quiet, h.draws, h.settled, h.canonical, h.cnt, rfl, h.err,
    h.errcode, h.transfer, h.resetIn, h.cmd, h.din⟩

/-- FINAL in phase ACTIVE, OFF being at most 63, by what it pushes (R131 to R135). -/
theorem Machine.finalize_pushed {s : State} (h : s.off.val ≤ 63) :
    Pushed (trailer s) { s with cnt := s.cnt + BitVec.ofNat 64 (trailer s).length, phase := .done } (finalize s) := by
  rw [finalize_eq s h]
  exact (s.fed_pushed (trailer s) h).setPhase .done

/-- After FINAL the buffer is empty (R135, R137). -/
theorem Machine.finalize_offset {s : State} (h : s.off.val ≤ 63) : (finalize s).off.val = 0 :=
  (finalize_pushed h).offset.trans (trailer_fills_block s h)

/-- Settles O32: FINAL pushes the trailer, which ends a block. -/
theorem finalFeedsTheTrailer : Obligations.FinalFeedsTheTrailer := by
  intro s ha ho
  rw [← trailer_length_eq]
  exact ⟨_, exec_final_active ha, finalize_offset ho, finalize_pushed ho⟩

/-! ## The blocks of P(M) -/

/-- P(M) has one block more than M has whole blocks, or two when the length field does not fit in the first (R137, R142). -/
theorem length_padded_eq_blocks (msg : List Byte) :
    (padded msg).length = 64 * (msg.length / 64 + if msg.length % 64 ≤ 55 then 1 else 2) := by
  rw [length_padded]
  obtain ⟨hp, hz⟩ | ⟨hp, hz⟩ := zeroCount_cases (msg.length % 64)
  · rw [hz, if_pos hp]
    omega
  · rw [hz, if_neg (by omega)]
    omega

theorem length_padded_mod (msg : List Byte) : (padded msg).length % 64 = 0 := by
  rw [length_padded_eq_blocks, Nat.mul_mod_right]

theorem length_padded_div (msg : List Byte) :
    (padded msg).length / 64 = msg.length / 64 + if msg.length % 64 ≤ 55 then 1 else 2 := by
  rw [length_padded_eq_blocks, Nat.mul_div_cancel_left _ (by decide)]

/-- The trailer of a message, from its length alone (R132 to R135). -/
theorem Holds.trailer_eq {msg : List Byte} {s : State} (h : Holds msg s) :
    trailer s = markerByte :: List.replicate (zeroCount (msg.length % 64)) fillByte ++
      leBytes 8 (BitVec.ofNat 64 (8 * msg.length)) := by
  apply List.append_cancel_left (as := msg)
  rw [← h.padded_eq, padded, List.append_assoc]

/-! ## The message closed -/

/-- FINAL has closed the message `msg`: PHASE is DONE, every block of P(M) is compressed, and BUF still shows the last one
(R137, R143). -/
structure Closed (msg : List Byte) (s : State) : Prop where
  done : s.phase = .done
  boundary : s.transfer = none
  chain : s.chain = md5Chain msg
  count : s.cnt = BitVec.ofNat 64 (padded msg).length
  offset : s.off.val = 0
  lastBlock : ∀ j, j < 64 → s.buf.read j = (padded msg)[(padded msg).length - 64 + j]?
  blocks : s.comps = msg.length / 64 + if msg.length % 64 ≤ 55 then 1 else 2

/-- Bytes that end a block leave the last block in BUF: those of it that are pushed, and before them the
pending ones. -/
theorem Holds.pushed_lastBlock {msg bytes : List Byte} {s u t : State} (h : Holds msg s) (hp : Pushed bytes u t)
    (ho : u.off = s.off) (hb : u.buf = s.buf) (hend : (msg ++ bytes).length % 64 = 0) (hne : bytes ≠ []) {j : Nat}
    (hj : j < 64) : t.buf.read j = (msg ++ bytes)[(msg ++ bytes).length - 64 + j]? := by
  have hoff : u.off.val = msg.length % 64 := ho ▸ h.offset
  have hpos := List.length_pos_iff.mpr hne
  rw [List.length_append] at hend ⊢
  by_cases hlt : msg.length + bytes.length - 64 + j < msg.length
  · have hold : 64 * (msg.length / 64) = msg.length + bytes.length - 64 := by omega
    rw [hp.kept j (by intro m hm; omega), hb, h.pending j (by omega), hold, List.getElem?_append_left hlt]
  · rw [List.getElem?_append_right (by omega), ← hp.stored _ (by omega) (by omega)]
    congr 1
    omega

/-- FINAL closes the message that the core holds (R137, R143). -/
theorem Holds.closed_finalize {msg : List Byte} {s : State} (h : Holds msg s) : Closed msg (finalize s) := by
  have hp := finalize_pushed h.offset_le
  have hpadded := h.padded_eq
  obtain ⟨hchain, hcnt, -, hblocks, -, hheld⟩ := h.pushed (by rw [State.withFrame, ← h.boundary]) hp
  rw [← hpadded] at hchain hcnt hblocks
  rw [length_padded_div] at hblocks
  refine ⟨finalize_phase s, hheld, hchain, hcnt, finalize_offset h.offset_le, fun j hj => ?_, hblocks⟩
  rw [hpadded]
  exact h.pushed_lastBlock hp rfl rfl (hpadded ▸ length_padded_mod msg) (by simp [trailer]) hj

theorem Holds.exec_final {msg : List Byte} {s : State} (h : Holds msg s) : exec .final s = .next (finalize s) :=
  exec_final_active h.active

/-- FINAL from a message runs one compression if the length field fits behind it, else two (R142). -/
theorem Holds.finalize_comps {msg : List Byte} {s : State} (h : Holds msg s) :
    (finalize s).comps = s.comps + if msg.length % 64 ≤ 55 then 1 else 2 := by
  rw [h.closed_finalize.blocks, h.blocks]

/-- Settles O38: what `Closed` says, CNT and the compressions also against the state before. -/
theorem stateAfterFinal : Obligations.StateAfterFinal := by
  intro msg s h
  have hc := h.closed_finalize
  refine ⟨_, h.exec_final, hc.offset, ?_, fun hsmall => ?_, hc.done, hc.chain, hc.lastBlock, h.finalize_comps⟩
  · rw [(finalize_pushed h.offset_le).cnt, trailer_length_eq, h.offset]
  · have hlen := length_padded_eq_blocks msg
    rw [hc.count, BitVec.toNat_ofNat, ← hlen]
    apply Nat.mod_eq_of_lt
    split at hlen <;> omega

/-- Settles O39: the count against the state before, and the two cases of the total as one quotient. -/
theorem oneOrTwoCompressions : Obligations.OneOrTwoCompressions := by
  intro msg s h
  refine ⟨_, h.exec_final, fun hp => ?_, fun hp => ?_, ?_⟩
  · rw [h.finalize_comps, if_neg (by omega)]
  · rw [h.finalize_comps, if_pos hp]
  · rw [h.closed_finalize.blocks]
    split <;> omega

/-- After whole blocks nothing is pending, and the trailer is one block (R141). -/
theorem Holds.finalize_chain_of_whole_blocks {msg : List Byte} {s : State} (h : Holds msg s) (hmod : msg.length % 64 = 0) :
    (finalize s).chain = compressBlock s.chain (trailer s) := by
  have hoff : s.off.val = 0 := h.offset.trans hmod
  have hlen : (trailer s).length = 64 := by rw [trailer_length, hoff]; rfl
  have hpending : s.pendingBytes = [] := List.eq_nil_of_length_eq_zero (s.length_pendingBytes.trans hoff)
  calc (finalize s).chain
    _ = chainBlocks ((s.off.val + (trailer s).length) / 64) s.chain (s.pendingBytes ++ trailer s) :=
        (finalize_pushed h.offset_le).chain
    _ = chainBlocks 1 s.chain (trailer s) := by rw [hoff, hlen, hpending, List.nil_append]
    _ = compressBlock s.chain (trailer s) := by rw [chainBlocks, chainBlocks, List.take_of_length_le hlen.le]

/-- Settles O40: the length field fits behind no bytes, and the block is the trailer. -/
theorem oneExtraBlockAfterFullBlocks : Obligations.OneExtraBlockAfterFullBlocks := by
  intro msg s h _ hmod
  refine ⟨_, h.exec_final, ?_, ?_, fun h64 => ⟨?_, ?_⟩⟩
  · rw [h.finalize_comps, hmod]
    rfl
  · rw [h.finalize_chain_of_whole_blocks hmod, h.trailer_eq, hmod]
    rfl
  · rw [h.closed_finalize.blocks, h64]
    rfl
  · rw [h64]
    decide

end Sys2Proof
end

section
/-! SERIALIZE (R136): the bytes of DIGEST. -/

namespace Sys2Proof.Machine

/-- R8. The bytes of a 32-bit slice are the four bytes at its place. -/
theorem leBytes_extractLsb' {w : Nat} (v : BitVec w) (p : Nat) :
    leBytes 4 (v.extractLsb' p 32) =
      [v.extractLsb' p 8, v.extractLsb' (p + 8) 8, v.extractLsb' (p + 16) 8, v.extractLsb' (p + 24) 8] := by
  rw [← leWord_extractLsb', leBytes_leWord]

/-- R73, R136. The digest bytes are the bytes of DIGEST, the lowest first. -/
theorem digestBytes_chain (s : State) : digestBytes s.chain = leBytes 16 s.digest := by
  have hquarters : digestBytes s.chain =
      leBytes 4 (s.digest.extractLsb' 0 32) ++ leBytes 4 (s.digest.extractLsb' 32 32) ++
        leBytes 4 (s.digest.extractLsb' 64 32) ++ leBytes 4 (s.digest.extractLsb' 96 32) := by
    rw [s.digest_quarter_A, s.digest_quarter_B, s.digest_quarter_C, s.digest_quarter_D, digestBytes]
    rfl
  rw [hquarters, leBytes_extractLsb', leBytes_extractLsb', leBytes_extractLsb', leBytes_extractLsb']
  rfl

/-- Settles O33: the bytes of DIGEST, and the bytes of each register. -/
theorem serializePresentsTheDigest : Obligations.SerializePresentsTheDigest := by
  refine fun s => ⟨rfl, rfl, fun n hn => ?_, fun m hm => ?_⟩
  · rw [digestBytes_chain, leBytes, List.getElem?_map, List.getElem?_range hn, Option.map_some]
  · obtain rfl | rfl | rfl | rfl : m = 0 ∨ m = 1 ∨ m = 2 ∨ m = 3 := by omega
    all_goals exact ⟨rfl, rfl, rfl, rfl⟩

end Sys2Proof.Machine
end

section
/-! Messages fed after an INIT (R139, R143): by induction over the commands, the core holds what was fed. -/

namespace Sys2Proof

open Machine

/-! ## The commands on a held message -/

/-- INIT opens the empty message (R110). -/
theorem Machine.exec_init_holds {s t : State} (hheld : s.transfer = none) (h : exec .init s = .next t) : Holds [] t := by
  obtain ⟨u, hu, hholds⟩ := initOpensTheEmptyMessage s hheld
  rwa [← Host.Outcome.next.inj (hu.symm.trans h)]

/-- FEED of a payload that is on DIN (R114). -/
theorem Holds.exec_feed {msg payload rest : List Byte} {len : BitVec 16} {s : State} (h : Holds msg s)
    (hdin : s.din = payload ++ rest) (hlen : payload.length = len.toNat) :
    exec (.feed len) s = .next (({ s with din := rest } : State).fed payload) := by
  rw [exec_feed_active len h.active, feedBytes_din_eq_fed h.offset_le h.boundary hdin hlen]

/-- FILL (R117). -/
theorem Holds.exec_fill {msg : List Byte} {s : State} (h : Holds msg s) (value : Byte) (count : BitVec 16) :
    exec (.fill value count) s = .next (s.fed (List.replicate count.toNat value)) := by
  rw [exec_fill_active value count h.active, feedBytes_const_eq_fed count value s h.offset_le]

/-- Feeding leaves no compression running. -/
theorem Holds.fed_notCompressing {msg : List Byte} {s : State} (h : Holds msg s) (bytes : List Byte)
    (hc : s.compressing = false) : (s.fed bytes).compressing = false :=
  (s.fed_pushed bytes h.offset_le).settled hc

/-! ## After any FEED and FILL commands -/

/-- R35 item 4, R143. After any FEED and FILL commands since an INIT the core holds the bytes they fed, and no compression is left
running. -/
theorem FedSinceInit.holds {msg : List Byte} {s : State} (h : FedSinceInit msg s) : Holds msg s ∧ s.compressing = false := by
  induction h with
  | init s t hheld hc he =>
    refine ⟨exec_init_holds hheld he, ?_⟩
    rw [exec_init_eq he]
    exact hc
  | host msg s cmd din _ ih => exact ⟨ih.1.host cmd din, ih.2⟩
  | feed msg payload rest len s t _ hdin hlen he ih =>
    obtain ⟨hh, hc⟩ := ih
    have hrest : Holds msg { s with din := rest } := hh.host s.cmd rest
    obtain rfl := Host.Outcome.next.inj ((hh.exec_feed hdin hlen).symm.trans he)
    exact ⟨hrest.fed payload, hrest.fed_notCompressing payload hc⟩
  | fill msg value count s t _ he ih =>
    obtain ⟨hh, hc⟩ := ih
    obtain rfl := Host.Outcome.next.inj ((hh.exec_fill value count).symm.trans he)
    exact ⟨hh.fed _, hh.fed_notCompressing _ hc⟩

/-- In phase DONE between commands the host reads DIGEST, without side effect (R30, R136). -/
theorem Closed.hostDigest_eq {msg : List Byte} {s : State} (h : Closed msg s) (hc : s.compressing = false) :
    hostDigest s = (s.digest, s) := by
  rw [hostDigest, if_pos (by simp [State.digestValid, State.busy, h.done, h.boundary, hc])]

/-- R138, R143. The digest bytes of a closed message. -/
theorem Closed.digestBytes_eq {msg : List Byte} {s : State} (h : Closed msg s) : digestBytes s.chain = md5 msg := by
  rw [h.chain, md5]

/-- Settles O37: the core holds what was fed, and FINAL closes it. -/
theorem finalGivesTheDigest : Obligations.FinalGivesTheDigest := by
  intro msg s hfed
  obtain ⟨h, hc⟩ := hfed.holds
  have hclosed := h.closed_finalize
  have hsettled : (finalize s).compressing = false := (finalize_pushed h.offset_le).settled hc
  exact ⟨h.active, h.chain, h.pending, length_padded_mod msg, _, h.exec_final, hclosed.done, hclosed.chain,
    hclosed.digestBytes_eq, decide_eq_true hclosed.done, rfl, fun _ _ => hclosed.hostDigest_eq hsettled⟩

/-- Settles O41: both states hold the message, and everything compared is a function of it. -/
theorem chunkSizeIndependence : Obligations.ChunkSizeIndependence := by
  intro msg s s' hfed hfed'
  obtain ⟨h, -⟩ := hfed.holds
  obtain ⟨h', -⟩ := hfed'.holds
  have hdigest : (finalize s').digest = (finalize s).digest := by
    rw [State.digest, State.digest, h'.closed_finalize.chain, h.closed_finalize.chain]
  refine ⟨h'.chain.trans h.chain.symm, h'.count.trans h.count.symm, Fin.ext (h'.offset.trans h.offset.symm), fun j hj => ?_,
    _, _, h.exec_final, h'.exec_final, hdigest, h.closed_finalize.digestBytes_eq⟩
  rw [h.offset] at hj
  rw [h.pending j hj, h'.pending j hj]

end Sys2Proof
end

section
/-! COMPUTE (R76, R138): a sequence of commands that the host has issued, run step by step. -/

namespace Sys2Proof

open Machine

/-! ## Issued commands -/

/-- The sequence `cs` waits on CMD and DIN and nothing else does: the codes of its commands, and their payloads one after the
other (R31, R32, R183). -/
structure Waiting (cs : List (Instr × List Byte)) (s : State) : Prop where
  words : s.cmd.map Code.cmd = cs.map fun c => encode c.1
  payload : s.din = (cs.map Prod.snd).flatten

/-- Issuing a sequence of commands appends their codes to CMD and their payloads to DIN, and writes nothing else. -/
theorem Machine.hostIssueAll_eq {cs : List (Instr × List Byte)} (hcs : ∀ c ∈ cs, ∃ w, encode c.1 = .cmd w) (s : State) :
    ∃ ws, ws.map Code.cmd = cs.map (fun c => encode c.1) ∧
      hostIssueAll cs s = { s with cmd := s.cmd ++ ws, din := s.din ++ (cs.map Prod.snd).flatten } := by
  induction cs generalizing s with
  | nil => exact ⟨[], rfl, by simp [hostIssueAll]⟩
  | cons c cs ih =>
    obtain ⟨w, hw⟩ := hcs c (List.mem_cons_self ..)
    have hissue : hostIssue c s = { s with cmd := s.cmd ++ [w], din := s.din ++ c.2 } := by
      rw [hostIssue, hw]
      rfl
    obtain ⟨ws, hws, e⟩ := ih (fun c' hc' => hcs c' (List.mem_cons_of_mem c hc')) (hostIssue c s)
    refine ⟨w :: ws, by rw [List.map_cons, List.map_cons, hws, hw], ?_⟩
    have hcons : hostIssueAll (c :: cs) s = hostIssueAll cs (hostIssue c s) := rfl
    rw [hcons, e, hissue]
    simp

/-- The first of the waiting commands starts: its word is taken, and the others wait (R31, R184). -/
theorem Waiting.step_eq {c : Instr × List Byte} {cs : List (Instr × List Byte)} {s : State} (h : Waiting (c :: cs) s)
    (hs : Ready s) :
    ∃ rest, rest.map Code.cmd = cs.map (fun c => encode c.1) ∧ step s = exec c.1 { s with cmd := rest } := by
  obtain ⟨hr, hc, ht⟩ := hs
  obtain ⟨w, rest, hq, hw, hrest⟩ := List.map_eq_cons_iff.mp h.words
  refine ⟨rest, hrest, ?_⟩
  rw [step_of_command hr hc ht hq (decodeCmd_eq_ok_iff.mpr hw.symm), takeCommand, hq, List.tail_cons]

/-! ## COMPUTE -/

theorem Machine.RecordKept.trans {s t u : State} (h : RecordKept s t) (k : RecordKept t u) : RecordKept s u :=
  ⟨k.1.trans h.1, k.2.trans h.2⟩

/-- What a run of waiting commands up to FINAL leads to: the message `msg` closed, every word and every payload byte taken, and
the fault record of `s` (R138). -/
structure Computed (msg : List Byte) (s t : State) : Prop where
  closed : Closed msg t
  noWord : t.cmd = []
  noByte : t.din = []
  record : RecordKept s t

/-- A waiting INIT opens the empty message, and the core is ready for the commands behind it. -/
theorem Waiting.step_init {cs : List (Instr × List Byte)} {s : State} (hw : Waiting ((.init, []) :: cs) s) (hs : Ready s) :
    ∃ t, step s = .next t ∧ Holds [] t ∧ Ready t ∧ Waiting cs t ∧ RecordKept s t := by
  obtain ⟨rest, hrest, hstep⟩ := hw.step_eq hs
  have ⟨_, _, hheld⟩ := hs
  exact ⟨_, hstep, exec_init_holds (s := { s with cmd := rest }) hheld rfl, hs, ⟨hrest, hw.payload⟩, rfl, rfl⟩

/-- The last of the waiting commands, FINAL, closes the message. -/
theorem Holds.step_final {msg : List Byte} {s : State} (h : Holds msg s) (hs : Ready s) (hw : Waiting [(.final, [])] s) :
    ∃ t, step s = .next t ∧ Computed msg s t := by
  obtain ⟨rest, hrest, hstep⟩ := hw.step_eq hs
  obtain rfl : rest = [] := List.map_eq_nil_iff.mp hrest
  have hh : Holds msg { s with cmd := [] } := h.host [] s.din
  have hp := finalize_pushed hh.offset_le
  exact ⟨_, hstep.trans hh.exec_final, hh.closed_finalize, hp.cmd, hp.din.trans hw.payload, hp.err, hp.errcode⟩

/-- A waiting FEED whose payload is on DIN extends the message, and the core is ready for the commands behind it. -/
theorem Holds.step_feed {msg payload : List Byte} {cs : List (Instr × List Byte)} {s : State} (h : Holds msg s) (hs : Ready s)
    (hlen : payload.length ≤ maxLen) (hw : Waiting ((.feed (BitVec.ofNat 16 payload.length), payload) :: cs) s) :
    ∃ t, step s = .next t ∧ Holds (msg ++ payload) t ∧ Ready t ∧ Waiting cs t ∧ RecordKept s t := by
  obtain ⟨rest, hrest, hstep⟩ := hw.step_eq hs
  obtain ⟨hr, hc, ht⟩ := hs
  have hlen' : payload.length = (BitVec.ofNat 16 payload.length).toNat := by
    rw [BitVec.toNat_ofNat, Nat.mod_eq_of_lt (hlen.trans_lt (by decide))]
  have hh : Holds msg { s with cmd := rest } := h.host rest s.din
  have hdin : Holds msg { s with cmd := rest, din := (cs.map Prod.snd).flatten } := h.host ..
  have hp := State.fed_pushed { s with cmd := rest, din := (cs.map Prod.snd).flatten } payload hdin.offset_le
  exact ⟨_, hstep.trans (hh.exec_feed hw.payload hlen'), hdin.fed payload,
    ⟨hp.resetIn.trans hr, hp.settled hc, hp.transfer.trans ht⟩,
    ⟨(congrArg (List.map Code.cmd) hp.cmd).trans hrest, hp.din⟩, hp.err, hp.errcode⟩

/-- Waiting FEEDs and a FINAL behind them, by induction over the FEEDs: the run closes the message extended by the payloads. -/
theorem Holds.run_feeds_final {msg : List Byte} {feeds : List (Instr × List Byte)} {s : State} (h : Holds msg s) (hs : Ready s)
    (hfeeds : ∀ c ∈ feeds, c.1 = .feed (BitVec.ofNat 16 c.2.length) ∧ c.2.length ≤ maxLen)
    (hw : Waiting (feeds ++ [(.final, [])]) s) :
    ∃ t, core.run (feeds.length + 1) s = .next t ∧ Computed (msg ++ (feeds.map Prod.snd).flatten) s t := by
  induction feeds generalizing msg s with
  | nil =>
    obtain ⟨t, hstep, ht⟩ := h.step_final hs hw
    refine ⟨t, run_succ_of_step 0 hstep, ?_⟩
    simpa using ht
  | cons c feeds ih =>
    obtain ⟨op, payload⟩ := c
    obtain ⟨⟨hop, hlen⟩, hrest⟩ := List.forall_mem_cons.mp hfeeds
    obtain rfl : op = .feed (BitVec.ofNat 16 payload.length) := hop
    obtain ⟨u, hstep, hu, hready, hwait, hkept⟩ := h.step_feed hs hlen hw
    obtain ⟨t, hrun, ht⟩ := ih hu hready hrest hwait
    refine ⟨t, (run_succ_of_step _ hstep).trans hrun, ?_, ht.noWord, ht.noByte, hkept.trans ht.record⟩
    simpa using ht.closed

theorem Machine.computeSeq_eq (data : List Byte) : computeSeq data = (.init, []) :: (feedl data ++ [(.final, [])]) := rfl

/-- Every element of COMPUTE has a command word (R76). -/
theorem Machine.computeSeq_encoded (data : List Byte) : ∀ c ∈ computeSeq data, ∃ w, encode c.1 = .cmd w := by
  intro c h
  rw [computeSeq_eq, List.mem_cons, List.mem_append, List.mem_singleton] at h
  obtain rfl | hfeed | rfl := h
  · exact ⟨_, rfl⟩
  · rw [(feedl_command hfeed).1]
    exact ⟨_, rfl⟩
  · exact ⟨_, rfl⟩

/-- The commands of COMPUTE, issued to a core on which nothing waits. -/
theorem Machine.hostIssueAll_waiting {cs : List (Instr × List Byte)} {s : State}
    (hcs : ∀ c ∈ cs, ∃ w, encode c.1 = .cmd w) (hs : Ready s) (hcmd : s.cmd = []) (hdin : s.din = []) :
    Waiting cs (hostIssueAll cs s) ∧ Ready (hostIssueAll cs s) ∧ RecordKept s (hostIssueAll cs s) := by
  obtain ⟨ws, hws, e⟩ := hostIssueAll_eq hcs s
  rw [e, hcmd, hdin]
  exact ⟨⟨hws, rfl⟩, hs, rfl, rfl⟩

/-- Settles O42: INIT opens the empty message, and the FEEDs of FEEDL and FINAL run from there. -/
theorem computeGivesTheDigest : Obligations.ComputeGivesTheDigest := by
  intro data s hs hcmd hdin
  obtain ⟨hw, hready, hissued⟩ := hostIssueAll_waiting (computeSeq_encoded data) hs hcmd hdin
  rw [computeSeq_eq] at hw hready hissued ⊢
  obtain ⟨u, hstep, hu, hready, hwait, hopened⟩ := hw.step_init hready
  obtain ⟨t, hrun, ht⟩ := hu.run_feeds_final hready (fun _ => feedl_command) hwait
  rw [List.nil_append, flatten_feedl] at ht
  refine ⟨t, ?_, ht.closed.done, ht.closed.digestBytes_eq, ht.noWord, ht.noByte, hissued.trans (hopened.trans ht.record)⟩
  rw [List.length_cons, List.length_append]
  exact (run_succ_of_step _ hstep).trans hrun

end Sys2Proof
end

section
/-! Faults (R150 to R154, R158): what taking one records, which command raises which, and that only misuse raises one. -/

namespace Sys2Proof.Machine

/-! ## Taking a fault -/

/-- Settles O45: ERRCODE by what ERR was, and the other fields as `recordFault` and `drawData` leave them. -/
theorem faultEntry : Obligations.FaultEntry := by
  rintro code s _ rfl
  refine ⟨fun herr => ?_, fun herr => ?_, rfl, rfl, rfl, rfl, fun addr => rfl, rfl, rfl, rfl, rfl, rfl, rfl⟩
  · rw [raiseFault_errcode, herr, if_neg Bool.false_ne_true]
  · rw [raiseFault_errcode, herr, if_pos rfl]

/-! ## The commands by phase -/

/-- A FEED outside phase ACTIVE whose payload is all there discards it and faults (R114). -/
theorem exec_feed_inactive {len : BitVec 16} {s : State} (ha : s.phase ≠ .active) (hthere : len.toNat ≤ s.din.length) :
    exec (.feed len) s = .next (raiseFault (feedFault s.phase) { s with din := s.din.drop len.toNat }) := by
  have hfeed : exec (.feed len) s = .next (pullDiscard len.toNat s) := if_neg ha
  rw [hfeed, pullDiscard, if_neg (Nat.not_lt.mpr hthere)]

theorem exec_fill_inactive (v : Byte) (n : BitVec 16) {s : State} (ha : s.phase ≠ .active) :
    exec (.fill v n) s = .next (raiseFault (feedFault s.phase) s) := if_neg ha

theorem exec_final_inactive {s : State} (ha : s.phase ≠ .active) :
    exec .final s = .next (raiseFault (finalFault s.phase) s) := if_neg ha

/-- A column of R153's table outside phase ACTIVE: its code for FEED and FILL, and its code for FINAL. -/
theorem exec_commands_inactive {s : State} {code finalCode : ErrCode} (ha : s.phase ≠ .active)
    (hcode : feedFault s.phase = code) (hfinal : finalFault s.phase = finalCode) :
    (∀ len : BitVec 16, len.toNat ≤ s.din.length →
      exec (.feed len) s = .next (raiseFault code { s with din := s.din.drop len.toNat })) ∧
    (∀ (v : Byte) (n : BitVec 16), exec (.fill v n) s = .next (raiseFault code s)) ∧
    exec .final s = .next (raiseFault finalCode s) := by
  subst hcode hfinal
  exact ⟨fun len => exec_feed_inactive ha, fun v n => exec_fill_inactive v n ha, exec_final_inactive ha⟩

/-- Settles O44, by the columns of R153's table; in ACTIVE the commands write no ERR. -/
theorem legalityByPhase : Obligations.LegalityByPhase := by
  intro s
  refine ⟨⟨_, rfl, rfl⟩, fun ha => ⟨fun len => ?_, fun v n => ?_, ?_⟩, ?_, fun hdone => ?_, fun w rest why => Ready.step_illegal⟩
  · have hk := feedBytes_controlKept len .din s
    exact ⟨_, exec_feed_active len ha, hk.phase.trans ha, hk.err⟩
  · have hk := feedBytes_controlKept n (.const v) s
    exact ⟨_, exec_fill_active v n ha, hk.phase.trans ha, hk.err⟩
  · exact ⟨_, exec_final_active ha, finalize_phase s, finalize_err s⟩
  · rintro (hidle | hfaulted)
    · exact exec_commands_inactive (by simp [hidle]) (by rw [hidle, feedFault]) (by rw [hidle, finalFault])
    · exact exec_commands_inactive (by simp [hfaulted]) (by rw [hfaulted, feedFault]) (by rw [hfaulted, finalFault])
  · exact exec_commands_inactive (by simp [hdone]) (by rw [hdone, feedFault]) (by rw [hdone, finalFault])

/-! ## Only misuse faults -/

/-- A fault that is new in `t` is one of a command outside phase ACTIVE, with a code of its own (R153). -/
def FaultsByPhaseOnly (s t : State) : Prop :=
  s.err = false → t.err = true → t.errcode ≠ .illegalCmd ∧ t.errcode ≠ .none ∧ s.phase ≠ .active

/-- Where ERR is kept no fault is new. -/
theorem faultsByPhaseOnly_of_err_eq {s t : State} (h : t.err = s.err) : FaultsByPhaseOnly s t := by
  intro hs ht
  rw [h, hs] at ht
  contradiction

/-- The first fault records its own code (R154). -/
theorem raiseFault_faultsByPhaseOnly {code : ErrCode} {s u : State} (ha : s.phase ≠ .active) (herr : u.err = s.err)
    (hcode : code ≠ .illegalCmd ∧ code ≠ .none) : FaultsByPhaseOnly s (raiseFault code u) := by
  intro hs _
  rw [raiseFault_errcode, herr, hs]
  exact ⟨hcode.1, hcode.2, ha⟩

theorem pullDiscard_faultsByPhaseOnly (n : Nat) {s : State} (ha : s.phase ≠ .active) :
    FaultsByPhaseOnly s (pullDiscard n s) := by
  obtain ⟨-, e⟩ | ⟨-, e⟩ := pullDiscard_cases n s <;> rw [e]
  · exact faultsByPhaseOnly_of_err_eq rfl
  · exact raiseFault_faultsByPhaseOnly ha rfl (feedFault_code ha)

/-- The four commands: in phase ACTIVE each keeps ERR, whatever its bytes and its length are (R151). -/
theorem command_faultsByPhaseOnly {op : Instr} {s t : State}
    (hop : op = .init ∨ (∃ len, op = .feed len) ∨ (∃ v n, op = .fill v n) ∨ op = .final) (h : exec op s = .next t) :
    FaultsByPhaseOnly s t := by
  obtain rfl | ⟨len, rfl⟩ | ⟨v, n, rfl⟩ | rfl := hop
  · rw [exec_init_eq h]
    exact faultsByPhaseOnly_of_err_eq rfl
  · obtain ⟨-, rfl⟩ | ⟨ha, rfl⟩ := exec_feed_cases h
    · exact faultsByPhaseOnly_of_err_eq (feedBytes_controlKept ..).err
    · exact pullDiscard_faultsByPhaseOnly _ ha
  · obtain ⟨-, rfl⟩ | ⟨ha, rfl⟩ := exec_fill_cases h
    · exact faultsByPhaseOnly_of_err_eq (feedBytes_controlKept ..).err
    · exact raiseFault_faultsByPhaseOnly ha rfl (feedFault_code ha)
  · obtain ⟨-, rfl⟩ | ⟨ha, rfl⟩ := exec_final_cases h
    · exact faultsByPhaseOnly_of_err_eq (finalize_err s)
    · exact raiseFault_faultsByPhaseOnly ha rfl (finalFault_code ha)

/-- A held FEED: the invariant says that one which discards is held outside phase ACTIVE (R114). -/
theorem resumeTransfer_faultsByPhaseOnly {x : Transfer} {s : State} (hinv : Inv s) (hx : s.transfer = some x) :
    FaultsByPhaseOnly s (resumeTransfer x s) := by
  cases x with
  | push left => exact faultsByPhaseOnly_of_err_eq (pullPush_controlKept left s).err
  | discard left => exact pullDiscard_faultsByPhaseOnly left (hinv.discardHeld left hx).1

/-- Settles O47, by what a step can do: an illegal word faults as one, RESET clears ERR, and the rest fault by the phase only. -/
theorem onlyMisuseFaults : Obligations.OnlyMisuseFaults := by
  intro s t hinv hstep hs ht
  obtain ⟨-, rfl⟩ | ⟨-, -, rfl⟩ | ⟨-, -, x, hx, rfl⟩ | ⟨-, -, -, ⟨-, rfl⟩ | ⟨op, -, he, hop⟩ | ⟨why, hf, rfl⟩⟩ :=
    step_cases hstep
  · simp at ht
  · exact .inr (faultsByPhaseOnly_of_err_eq (closeStep_controlKept s.i (stepAt s.i s)).err hs ht)
  · exact .inr (resumeTransfer_faultsByPhaseOnly hinv hx hs ht)
  · exact .inr (faultsByPhaseOnly_of_err_eq rfl hs ht)
  · have hc : FaultsByPhaseOnly (takeCommand s) t := command_faultsByPhaseOnly hop he
    exact .inr (hc hs ht)
  · exact .inl ⟨by simp [hs], why, hf⟩

end Sys2Proof.Machine
end

section
/-! The product of N_INST cores (R6, R165). -/

namespace Sys2Proof.Machine

/-- A step of the product: no core has the number `k` and nothing moves, or core `k` makes its own step. -/
theorem stepInstance_cases {k : Nat} {cores cores' : List State} (h : stepInstance k cores = .next cores') :
    (cores[k]? = none ∧ cores' = cores) ∨
      ∃ s t, cores[k]? = some s ∧ step s = .next t ∧ cores' = cores.set k t := by
  cases hk : cores[k]? with
  | none =>
    simp only [stepInstance, hk] at h
    exact .inl ⟨rfl, (Host.Outcome.next.inj h).symm⟩
  | some s =>
    simp only [stepInstance, hk] at h
    cases hs : step s with
    | next t =>
      simp only [hs] at h
      exact .inr ⟨s, t, rfl, hs, (Host.Outcome.next.inj h).symm⟩
    | fault r => simp [hs] at h
    | refused r => simp [hs] at h

/-- Settles O60: the list is written at `k` only. -/
theorem instancesAreIndependent : Obligations.InstancesAreIndependent := by
  intro cores cores' k h
  obtain ⟨hk, rfl⟩ | ⟨s, t, hk, hstep, rfl⟩ := stepInstance_cases h
  · exact ⟨rfl, fun _ _ => rfl, fun s hs => by simp [hk] at hs⟩
  · refine ⟨List.length_set, fun j hj => List.getElem?_set_ne hj.symm, fun u hu => ?_⟩
    obtain rfl : s = u := Option.some.inj (hk.symm.trans hu)
    exact ⟨t, hstep, List.getElem?_set_self (List.getElem?_eq_some_iff.mp hk).1⟩

end Sys2Proof.Machine
end

section
/-! The next step (R180, R184, R194), and a FEED that holds: how its payload arrives makes no difference (R185). -/

namespace Sys2Proof.Machine

/-! ## A step by what the core is doing -/

@[simp] theorem resetCore_status (s : State) : (resetCore s).status = 0x00 := by
  rw [State.status, State.digestValid, resetCore_phase, resetCore_err, resetCore_errcode]
  decide

/-- Settles O51: the step is RESET, whose control part is fixed. -/
theorem resetAtAnyMoment : Obligations.ResetAtAnyMoment :=
  fun s hr => ⟨_, step_of_reset hr, rfl, rfl, rfl, rfl, rfl, rfl, resetCore_status s, rfl, rfl⟩

/-- Settles O55: nothing comes before the word, and its tail is what stays on CMD. -/
theorem stepRunsTheCommand : Obligations.StepRunsTheCommand := by
  intro s w rest op hready hq hd
  obtain ⟨hr, hc, ht⟩ := hready
  rw [step_of_command hr hc ht hq hd, takeCommand, hq, List.tail_cons]

/-! ## A held FEED and DIN empty -/

/-- A held FEED in phase ACTIVE that finds no byte goes on holding (R194). -/
theorem pullPush_of_din_nil {n : Nat} {s : State} (hn : 1 ≤ n) (hdin : s.din = []) (ht : s.transfer = some (.push n)) :
    pullPush n s = s := by
  have hshort : s.din.length < n := by rw [hdin]; exact hn
  rw [pullPush_eq, if_pos hshort, hdin, List.take_nil, List.drop_nil, List.length_nil, Nat.sub_zero, pushAll_nil,
    ← ht, ← hdin]
  rfl

/-- A held FEED that discards and finds no byte goes on holding (R194). -/
theorem pullDiscard_of_din_nil {n : Nat} {s : State} (hn : 1 ≤ n) (hdin : s.din = []) (ht : s.transfer = some (.discard n)) :
    pullDiscard n s = s := by
  have hshort : s.din.length < n := by rw [hdin]; exact hn
  rw [pullDiscard, if_pos hshort, hdin, List.drop_nil, List.length_nil, Nat.sub_zero, ← ht, ← hdin]

/-- Settles O31: the step goes on with the held FEED, which finds no byte, or it is idle. -/
theorem waitingChangesNothing : Obligations.WaitingChangesNothing := by
  intro s hr hc
  refine ⟨fun left hleft hdin hheld => ?_, step_of_idle hr hc⟩
  obtain ht | ht := hheld
  · rw [step_of_transfer hr hc ht, resumeTransfer, pullPush_of_din_nil hleft hdin ht]
  · rw [step_of_transfer hr hc ht, resumeTransfer, pullDiscard_of_din_nil hleft hdin ht]

/-! ## A held FEED and late bytes -/

/-- Popping and pushing, the frame of the state named (R185). -/
theorem pullPush_withFrame (n : Nat) (s : State) (cnt : BitVec 64) (phase : Phase) (transfer : Option Transfer)
    (cmd : List Word) (din : List Byte) :
    pullPush n (s.withFrame cnt phase transfer cmd din) = (pushAll (din.take n) s).withFrame cnt phase
      (if din.length < n then some (.push (n - din.length)) else none) cmd (din.drop n) := by
  have hdin : (s.withFrame cnt phase transfer cmd din).din = din := rfl
  rw [pullPush_eq, hdin, pushAll_withFrame]
  rfl

/-- A FEED in phase ACTIVE that finds DIN short pushes all that is there and holds (R185). -/
theorem pullPush_short {n : Nat} {s : State} (h : s.din.length < n) :
    pullPush n s = (pushAll s.din s).withFrame s.cnt s.phase (some (.push (n - s.din.length))) s.cmd [] := by
  rw [pullPush_eq, if_pos h, List.take_of_length_le h.le, List.drop_of_length_le h.le]

/-- A FEED outside phase ACTIVE that finds DIN short discards all that is there and holds (R114, R185). -/
theorem pullDiscard_short {n : Nat} {s : State} (h : s.din.length < n) :
    pullDiscard n s = { s with din := [], transfer := some (.discard (n - s.din.length)) } := by
  rw [pullDiscard, if_pos h, List.drop_of_length_le h.le]

/-- R185. What DIN has is pushed and then what comes late, as when the late bytes are there at once. -/
theorem pullPush_hostData {n : Nat} {s : State} (late : List Byte) (h : s.din.length < n) :
    pullPush (n - s.din.length) (hostData late (pullPush n s)) = pullPush n (hostData late s) := by
  have hheld : hostData late (pullPush n s) =
      (pushAll s.din s).withFrame s.cnt s.phase (some (.push (n - s.din.length))) s.cmd late := by
    rw [pullPush_short h]
    rfl
  have hthere : hostData late s = s.withFrame s.cnt s.phase s.transfer s.cmd (s.din ++ late) := rfl
  rw [hheld, hthere, pullPush_withFrame, pullPush_withFrame, ← pushAll_append, List.take_append, List.drop_append,
    List.take_of_length_le h.le, List.drop_of_length_le h.le, List.nil_append, List.length_append, Nat.sub_sub]
  simp only [Nat.lt_sub_iff_add_lt']

/-- R185. Outside phase ACTIVE the bytes are discarded, and the fault comes with the last one, whenever it arrives: each
outcome writes the transfer anew. -/
theorem pullDiscard_hostData {n : Nat} {s : State} (late : List Byte) (h : s.din.length < n) :
    pullDiscard (n - s.din.length) (hostData late (pullDiscard n s)) = pullDiscard n (hostData late s) := by
  have hdrop : (s.din ++ late).drop n = late.drop (n - s.din.length) := by
    rw [List.drop_append, List.drop_of_length_le h.le, List.nil_append]
  rw [pullDiscard_short h]
  simp only [pullDiscard, hostData, List.nil_append, hdrop, List.length_append, Nat.sub_sub, Nat.lt_sub_iff_add_lt']
  rfl

/-- The host's supply leaves a held FEED to the next step (R183, R185). -/
theorem step_hostData_of_transfer {x : Transfer} {s : State} (late : List Byte) (hr : s.resetIn = false)
    (hc : s.compressing = false) (ht : s.transfer = some x) :
    step (hostData late s) = .next (resumeTransfer x (hostData late s)) :=
  step_of_transfer (s := hostData late s) hr hc ht

/-- The step after late bytes ends in the state of one pull with these bytes there, OFF being at most 63. -/
theorem step_hostData_pullPush {n : Nat} {s : State} (late : List Byte) (hr : s.resetIn = false)
    (hc : s.compressing = false) (ho : s.off.val ≤ 63) (h : s.din.length < n) :
    step (hostData late (pullPush n s)) = .next (pullPush n (hostData late s)) := by
  have hp := pushAll_pushed s.din s ho
  have hheld : (pullPush n s).transfer = some (.push (n - s.din.length)) := by
    rw [pullPush_short h]
    rfl
  have hsettled : (pullPush n s).compressing = false := by
    rw [pullPush_short h]
    exact hp.settled hc
  rw [step_hostData_of_transfer late ((pullPush_controlKept n s).resetIn.trans hr) hsettled hheld, resumeTransfer,
    pullPush_hostData late h]

/-- Outside phase ACTIVE the step after late bytes ends in the state of one FEED with these bytes there, whatever OFF is. -/
theorem step_hostData_pullDiscard {n : Nat} {s : State} (late : List Byte) (hr : s.resetIn = false)
    (hc : s.compressing = false) (h : s.din.length < n) :
    step (hostData late (pullDiscard n s)) = .next (pullDiscard n (hostData late s)) := by
  rw [← pullDiscard_hostData late h, pullDiscard_short h]
  exact step_hostData_of_transfer (s := { s with din := [], transfer := some (.discard (n - s.din.length)) }) late hr hc rfl

/-! ## FEED with its payload late -/

/-- The defensive compression does not see the late bytes. -/
theorem compressIfFull_hostData (late : List Byte) (s : State) :
    compressIfFull (hostData late s) = hostData late (compressIfFull s) := by
  rw [hostData, compressIfFull_setDin, hostData, (compressIfFull_unpushed s).din]

/-- No compression is left running. -/
theorem compressIfFull_notCompressing {s : State} (hc : s.compressing = false) : (compressIfFull s).compressing = false := by
  rw [compressIfFull]
  split
  · exact compress_compressing s
  · exact hc

/-- FEEDBYTES from DIN, from any OFF: the bytes counted and a full buffer compressed, it pops and pushes (R112, R113). -/
theorem feedBytes_din_eq_pullPush {n : BitVec 16} (hn : n ≠ 0) (s : State) :
    feedBytes n .din s = pullPush n.toNat (compressIfFull (s.count n)) := if_neg hn

/-- R185. A FEED that finds DIN short holds, having taken every byte. -/
theorem feedBytes_din_short {n : BitVec 16} {s : State} (h : s.din.length < n.toNat) :
    (feedBytes n .din s).transfer = some (.push (n.toNat - s.din.length)) ∧ (feedBytes n .din s).din = [] := by
  have hn : n ≠ 0 := by rintro rfl; exact Nat.not_lt_zero _ h
  have hdin : (compressIfFull (s.count n)).din = s.din := (compressIfFull_unpushed (s.count n)).din
  rw [← hdin] at h ⊢
  rw [feedBytes_din_eq_pullPush hn, pullPush_short h]
  exact ⟨rfl, rfl⟩

/-- R185. The step after late bytes ends in the state of FEEDBYTES with these bytes there. -/
theorem step_hostData_feedBytes {n : BitVec 16} {s : State} (late : List Byte) (hr : s.resetIn = false)
    (hc : s.compressing = false) (h : s.din.length < n.toNat) :
    step (hostData late (feedBytes n .din s)) = .next (feedBytes n .din (hostData late s)) := by
  have hn : n ≠ 0 := by rintro rfl; exact Nat.not_lt_zero _ h
  have hk := compressIfFull_unpushed (s.count n)
  have hcount : (hostData late s).count n = hostData late (s.count n) := rfl
  rw [feedBytes_din_eq_pullPush hn, feedBytes_din_eq_pullPush hn, hcount, compressIfFull_hostData]
  exact step_hostData_pullPush late (hk.resetIn.trans hr) (compressIfFull_notCompressing hc) (compressIfFull_offset_le _)
    (hk.din.symm ▸ h)

/-- Settles O30: FEED is FEEDBYTES from DIN in phase ACTIVE and `pullDiscard` outside it. -/
theorem latePayloadMakesNoDifference : Obligations.LatePayloadMakesNoDifference := by
  intro len late s hready hshort _
  obtain ⟨hr, hc, -⟩ := hready
  constructor
  · intro ha
    obtain ⟨hheld, hempty⟩ := feedBytes_din_short hshort
    exact ⟨_, _, exec_feed_active len ha, rfl, hheld, hempty, step_hostData_feedBytes late hr hc hshort,
      exec_feed_active len ha⟩
  · intro ha
    exact ⟨_, _, if_neg ha, pullDiscard_short hshort, step_hostData_pullDiscard late hr hc hshort, if_neg ha⟩

end Sys2Proof.Machine
end
